-- ==== Sys2Proof/Word.lean ====
section
/-! DEFINITION. The two word widths of the block, its words, its slot containers and its slot numbers. -/

namespace Sys2Proof

/-- The State's width. "`w` ranges over exactly the two values 32 and 64" and no other width exists in this
hardware (00_scope.md R5, 10_state.md R24). -/
inductive Width where
  | w32
  | w64
  deriving DecidableEq, Repr

/-- The width as a number of bits: `W` of 10_state.md R24. -/
abbrev Width.bits : Width → Nat
  | .w32 => 32
  | .w64 => 64

/-- `Word_w` of 00_scope.md R5: a vector of `w` bits. -/
abbrev Word (w : Width) := BitVec w.bits

/-- A slot's storage is a 64-bit container at both widths (10_state.md R22). -/
abbrev Container := BitVec 64

/-- A slot number, 0 to 15, all valid (10_state.md R21, 20_memory.md R40). -/
abbrev SlotIx := Fin 16

/-- The sixteen slots `S[0..15]` (10_state.md R20, R21). -/
abbrev Slots := Vector Container 16

end Sys2Proof
end

