-- ==== Sys2Proof/Syntax.lean ====
section
/-! DEFINITION. The commands of NORX-CORE command set 1, one constructor per row of spec/opcode_table.json. -/

namespace Sys2Proof

/-- A command (30_encoding.md R66). Slots are slot numbers (R62), amounts are 6-bit numbers (R63), NEW carries a
width and an 8-bit round count (R64), INJ and INIT carry the 8-bit parallelism `d` and the 10-bit tag size `a`
(R65). LDS's value is the data-in port's and no field of the command word (44_host_access.md R161). -/
inductive Instr where
  | new (ws : Width) (r : BitVec 8)
  | lds (sd : SlotIx)
  | rds (sa : SlotIx)
  | rdst
  | xor (sd sa sb : SlotIx)
  | and (sd sa sb : SlotIx)
  | shl (sd sa : SlotIx) (n : BitVec 6)
  | ror (sd sa : SlotIx) (n : BitVec 6)
  | adx (sd sa sb : SlotIx)
  | xrl (sd sa sb : SlotIx) (v : BitVec 6)
  | g (ga gb gc gd : SlotIx)
  | f
  | inj (d : BitVec 8) (a : BitVec 10)
  | init (d : BitVec 8) (a : BitVec 10)
  deriving DecidableEq, Repr

end Sys2Proof
end

