-- ==== Sys2Proof/Decode.lean ====
section
/-! DEFINITION. The command word: cutting out its fields, the opcode map, decoding (total, rejecting by name) and
encoding (30_encoding.md R60 to R71). -/

namespace Sys2Proof

/-- Why a command word is illegal (R71): its opcode is not assigned (R69), or a reserved bit of its format is set
(R68). Both raise IllegalCommand (60_exceptions.md R171). -/
inductive Illegal where
  | unassignedOpcode
  | reservedBit
  deriving DecidableEq, Repr

/-- The one-bit code of a width, `WS`: 0 selects 32, 1 selects 64 (R64, 10_state.md R24). -/
def wsBit : Width → BitVec 1
  | .w32 => 0#1
  | .w64 => 1#1

/-- The width a `WS` bit selects (R64). -/
def widthOfBit (b : BitVec 1) : Width := if b = 0#1 then .w32 else .w64

/-- The slot field whose lowest bit is bit `lo` of the word: 4 bits, the slot number itself (R62). -/
def slotField (cw : BitVec 32) (lo : Nat) : SlotIx := (cw.extractLsb' lo 4).toFin

/-- The amount field, `CW[5:0]` (R63). -/
def amountField (cw : BitVec 32) : BitVec 6 := cw.extractLsb' 0 6

/-- The parallelism field, `CW[25:18]` (R65). -/
def parallelismField (cw : BitVec 32) : BitVec 8 := cw.extractLsb' 18 8

/-- The tag-size field, `CW[9:0]` (R65). -/
def tagField (cw : BitVec 32) : BitVec 10 := cw.extractLsb' 0 10

/-- One row of the opcode map: the opcode, the match and mask words, and how the command's fields are cut out of a
word of this row. -/
structure OpcodeRow where
  op : BitVec 6
  mtch : BitVec 32
  mask : BitVec 32
  build : BitVec 32 → Instr

/-- The opcode map (R66), with the field positions of R61. -/
def opcodeTable : List OpcodeRow :=
  [ ⟨0x01, 0x04000000, 0xFFFFFE00, fun cw => .new (widthOfBit (cw.extractLsb' 8 1)) (cw.extractLsb' 0 8)⟩,
    ⟨0x02, 0x08000000, 0xFC3FFFFF, fun cw => .lds (slotField cw 22)⟩,
    ⟨0x03, 0x0C000000, 0xFFC3FFFF, fun cw => .rds (slotField cw 18)⟩,
    ⟨0x04, 0x10000000, 0xFFFFFFFF, fun _ => .rdst⟩,
    ⟨0x08, 0x20000000, 0xFC003FFF, fun cw => .xor (slotField cw 22) (slotField cw 18) (slotField cw 14)⟩,
    ⟨0x09, 0x24000000, 0xFC003FFF, fun cw => .and (slotField cw 22) (slotField cw 18) (slotField cw 14)⟩,
    ⟨0x0A, 0x28000000, 0xFC03FFC0, fun cw => .shl (slotField cw 22) (slotField cw 18) (amountField cw)⟩,
    ⟨0x0B, 0x2C000000, 0xFC03FFC0, fun cw => .ror (slotField cw 22) (slotField cw 18) (amountField cw)⟩,
    ⟨0x0C, 0x30000000, 0xFC003FFF, fun cw => .adx (slotField cw 22) (slotField cw 18) (slotField cw 14)⟩,
    ⟨0x0D, 0x34000000, 0xFC003FC0, fun cw =>
      .xrl (slotField cw 22) (slotField cw 18) (slotField cw 14) (amountField cw)⟩,
    ⟨0x10, 0x40000000, 0xFC0003FF, fun cw =>
      .g (slotField cw 22) (slotField cw 18) (slotField cw 14) (slotField cw 10)⟩,
    ⟨0x11, 0x44000000, 0xFFFFFFFF, fun _ => .f⟩,
    ⟨0x12, 0x48000000, 0xFC03FC00, fun cw => .inj (parallelismField cw) (tagField cw)⟩,
    ⟨0x13, 0x4C000000, 0xFC03FC00, fun cw => .init (parallelismField cw) (tagField cw)⟩ ]

/-- The opcode, `CW[31:26]` (R61). -/
def opcodeField (cw : BitVec 32) : BitVec 6 := cw.extractLsb' 26 6

/-- The decoding procedure of R71. It reads no state. -/
def decode (cw : BitVec 32) : Except Illegal Instr :=
  match opcodeTable.find? (fun row => row.op == opcodeField cw) with
  | none => .error .unassignedOpcode
  | some row => if cw &&& row.mask = row.mtch then .ok (row.build cw) else .error .reservedBit

/-- `x` placed with its lowest bit at bit `lo` of a command word. -/
def place {k : Nat} (x : BitVec k) (lo : Nat) : BitVec 32 := x.setWidth 32 <<< lo

/-- A slot number placed as a 4-bit field (R62). -/
def placeSlot (i : SlotIx) (lo : Nat) : BitVec 32 := place (BitVec.ofNat 4 i.val) lo

/-- Formats R, X and Q share the first three slot fields, at 25:22, 21:18 and 17:14 (R61). -/
def threeSlots (op : BitVec 6) (x y z : SlotIx) : BitVec 32 :=
  place op 26 ||| placeSlot x 22 ||| placeSlot y 18 ||| placeSlot z 14

/-- Format I: `sd` at 25:22, `sa` at 21:18, the amount at 5:0 (R61). -/
def formatI (op : BitVec 6) (sd sa : SlotIx) (n : BitVec 6) : BitVec 32 :=
  place op 26 ||| placeSlot sd 22 ||| placeSlot sa 18 ||| place n 0

/-- Format P: `d` at 25:18, `a` at 9:0 (R61). -/
def formatP (op : BitVec 6) (d : BitVec 8) (a : BitVec 10) : BitVec 32 :=
  place op 26 ||| place d 18 ||| place a 0

/-- The command word of a command: R61's formats with R66's opcodes, every reserved bit zero. -/
def encode : Instr → BitVec 32
  | .new ws r => place (0x01 : BitVec 6) 26 ||| place (wsBit ws) 8 ||| place r 0
  | .lds sd => place (0x02 : BitVec 6) 26 ||| placeSlot sd 22
  | .rds sa => place (0x03 : BitVec 6) 26 ||| placeSlot sa 18
  | .rdst => place (0x04 : BitVec 6) 26
  | .xor sd sa sb => threeSlots 0x08 sd sa sb
  | .and sd sa sb => threeSlots 0x09 sd sa sb
  | .shl sd sa n => formatI 0x0A sd sa n
  | .ror sd sa n => formatI 0x0B sd sa n
  | .adx sd sa sb => threeSlots 0x0C sd sa sb
  | .xrl sd sa sb v => threeSlots 0x0D sd sa sb ||| place v 0
  | .g ga gb gc gd => threeSlots 0x10 ga gb gc ||| placeSlot gd 10
  | .f => place (0x11 : BitVec 6) 26
  | .inj d a => formatP 0x12 d a
  | .init d a => formatP 0x13 d a

/-- The command word that a table row's bits stand for: bit `i` of `w` is bit `i` of `CW`, the bits above `nbits`
are zero, and there is no byte order to apply (R60, 20_memory.md R42). -/
def tableWord (nbits w : Nat) : BitVec 32 := BitVec.ofNat 32 (w % 2 ^ nbits)

/-- The command the decoder reads from a row's bits; every command is 32 bits long (R60), so a longer word is none. -/
def decodeTableWord (nbits w : Nat) : Option Instr :=
  if nbits ≤ 32 then
    match decode (tableWord nbits w) with
    | .ok i => some i
    | .error _ => none
  else none

end Sys2Proof
end

