-- ==== Sys2Proof/Config.lean ====
section
/-! DEFINITION. What the spec leaves open: the initialization constants `IC` and the slots after a reset event.
Both are opaque: no proof can see a value of them. -/

namespace Sys2Proof

/-- A table of initialization constants for one width: the ten entries at the constant slots
`CS = {0, 3, 8, 9, 10, 11, 12, 13, 14, 15}`, and no others (43_initializer.md R141, R142). -/
structure InitConstants (w : Width) where
  c0 : Word w
  c3 : Word w
  c8 : Word w
  c9 : Word w
  c10 : Word w
  c11 : Word w
  c12 : Word w
  c13 : Word w
  c14 : Word w
  c15 : Word w
  deriving DecidableEq, Repr, Inhabited

/-- `IC_32` and `IC_64`, the OPEN parameter of the spec (43_initializer.md R142, 92_eei_decisions.md D12): the
document does not give the values. DESIGN CHOICE (log 4, safe): an uninterpreted constant. -/
opaque Config.ic : (w : Width) → InitConstants w

/-- What slot `i` holds after a reset event: unspecified (10_state.md R34, 70_reset_and_hazards.md R202).
DESIGN CHOICE (log 3, safe): a free value, applied to the number of the reset event and to the slots before it, so
that a reset may also leave the old words where they were. -/
opaque Config.resetSlot : (resetNumber : Nat) → (before : Slots) → SlotIx → Container

end Sys2Proof
end

