-- ==== Sys2Proof/Machine/State.lean ====
section
/-! DEFINITION. The block's architectural state, the command exchange beside it, the fault codes, the reasons a step
may stop (none in this hardware), and the state after reset. -/

namespace Sys2Proof.Machine

/-- The six faults of 60_exceptions.md R170. None stops the machine: each is answered and the block goes on (R185).
So these are data of the next state, not the `Fault` of a stopped step. -/
inductive FaultCode where
  | illegalCommand
  | noState
  | widthMismatch
  | badAmount
  | badOperand
  | parameterRange
  deriving DecidableEq, Repr

/-- The complete architectural state of the block: "the five items of this table and nothing else. A model's state
type has exactly these fields" (10_state.md R20). -/
structure Block where
  /-- `S[0..15]`, each in a 64-bit container (R21, R22). -/
  slots : Slots
  /-- `WS`, the State's width (R24). -/
  ws : Width
  /-- `R`, the State's round count (R25). -/
  r : BitVec 8
  /-- `V`, set once a State has been created (R26). -/
  v : Bool
  /-- `ERR`, the first fault since reset; `none` is the code 0 (R27; log 11). -/
  err : Option FaultCode
  deriving DecidableEq, Repr

/-- What the outside can do to the block: present a command with its data-in value (R31), or apply reset
(70_reset_and_hazards.md R200). -/
inductive HostEvent where
  | command (cw : BitVec 32) (din : BitVec 64)
  | reset
  deriving DecidableEq, Repr

/-- The response to one command: the status code and the data-out value (R31). -/
structure Response where
  st : BitVec 3
  dout : BitVec 64
  deriving DecidableEq, Repr

/-- The block and its exchange with the host. Everything but `block` is outside the block's own state (R29, R31;
log 1): the events the host has still to issue, the data-in port, and the responses given so far, oldest first.
`resets` counts the reset events, for the free value of log 3. -/
structure State where
  block : Block
  pending : List HostEvent
  din : BitVec 64
  responses : List Response
  resets : Nat
  deriving DecidableEq, Repr

/-- The reasons a step may stop with a fault: none. "The block never stops, hangs or locks up because of one"
(60_exceptions.md R185), and no behaviour of the block is `stuck` (93_implementation_defined.md section 1). The six
faults of R170 are next states (log 10). With no constructor there is nothing to raise. -/
inductive Fault where
  deriving DecidableEq, Repr

/-- The reasons a step may be refused. -/
inductive Refusal where
  /-- Raised by an arm of `exec` whose command has no meaning yet; safe. No arm raises it: all fourteen commands
  have their meaning. -/
  | notModelled (mnemonic : String)
  deriving DecidableEq, Repr

/-- The block right after reset (R34): `V`, `ERR`, `WS`, `R` are 0. The slots are unspecified there; DESIGN CHOICE
(log 2, unsafe): zero. -/
def Block.reset : Block :=
  { slots := Vector.replicate 16 0#64, ws := .w32, r := 0#8, v := false, err := none }

/-- The machine right after reset, idle and with nothing presented (R200). DESIGN CHOICE (log 1, log 6): nothing
pending, the data-in port zero, no response given. -/
def State.reset : State :=
  { block := .reset, pending := [], din := 0#64, responses := [], resets := 0 }

end Sys2Proof.Machine
end

