-- ==== Sys2Proof/Machine/Flags.lean ====
section
/-! DEFINITION. The block has no condition codes (10_state.md R30). Its small status state is `V` and `ERR`; here are
the codes of `ERR`, its sticky update and the status word `STAT`. -/

namespace Sys2Proof.Machine

/-- The code of a fault (60_exceptions.md R170). 0 is no fault and 7 never occurs. -/
def FaultCode.code : FaultCode → BitVec 3
  | .illegalCommand => 1#3
  | .noState => 2#3
  | .widthMismatch => 3#3
  | .badAmount => 4#3
  | .badOperand => 5#3
  | .parameterRange => 6#3

/-- `ERR` as its 3-bit code (10_state.md R27). -/
def errCode : Option FaultCode → BitVec 3
  | none => 0#3
  | some c => c.code

/-- The sticky update: "if ERR = 0: ERR <- c" (60_exceptions.md R174). -/
def stickyErr (old : Option FaultCode) (c : FaultCode) : Option FaultCode :=
  match old with
  | none => some c
  | some first => some first

/-- The bit of `V`. -/
def vBit (v : Bool) : BitVec 1 := BitVec.ofBool v

/-- `STAT = R | (WS << 8) | (V << 9) | (ERR << 10)`, zero-extended to 64 bits (10_state.md R28). -/
def stat (b : Block) : BitVec 64 :=
  b.r.setWidth 64 ||| (wsBit b.ws).setWidth 64 <<< 8 ||| (vBit b.v).setWidth 64 <<< 9 |||
    (errCode b.err).setWidth 64 <<< 10

end Sys2Proof.Machine
end

