-- ==== Sys2Proof/Machine/Ops.lean ====
section
/-! DEFINITION. The shared operations: reading and writing a slot at the State's width, answering a command, taking a
fault, reset, and accepting the host's next event. The block has no memory (20_memory.md R40), so there are no memory
operations. -/

namespace Sys2Proof.Machine

/-- The answer of one step of this machine. -/
abbrev Answer := Host.Outcome State Fault Refusal

/-- A container's value as a word of width `w`: its low `w` bits (10_state.md R22; log 9). -/
def toWord (w : Width) (c : Container) : Word w := c.setWidth w.bits

/-- A word in its container: `zext_64` (10_state.md R22). -/
def toContainer {w : Width} (x : Word w) : Container := x.setWidth 64

/-- `S[i]` as a `Word_w` (00_scope.md R8). -/
def readSlot (w : Width) (S : Slots) (i : SlotIx) : Word w := toWord w S[i]

/-- `S[i] <- x` (00_scope.md R8); "every write to a slot in a 32-bit State writes `zext_64(v)`" (10_state.md R22). -/
def writeSlot {w : Width} (S : Slots) (i : SlotIx) (x : Word w) : Slots := S.set i (toContainer x)

/-- `respond(st, data)` of 00_scope.md R8: the command's one response. -/
def State.respond (s : State) (st : BitVec 3) (dout : BitVec 64) : State :=
  { s with responses := s.responses ++ [⟨st, dout⟩] }

/-- A command that executed: the block's new state, and the response `(0, dout)`. -/
def complete (s : State) (b : Block) (dout : BitVec 64) : Answer :=
  .next ({ s with block := b }.respond 0#3 dout)

/-- TAKING A FAULT, the one exception of this hardware (60_exceptions.md R174): `ERR` takes the code if it was 0, the
response is `(code, 0)`, and nothing else changes. Control goes nowhere: no handler, no saved state, no mode. There is
no return from a fault to model, "because there is no trap entry that changes control" (R183). -/
def raiseFault (c : FaultCode) (s : State) : Answer :=
  .next ({ s with block := { s.block with err := stickyErr s.block.err c } }.respond c.code 0#64)

/-- The NoState check, made before a command's own check (60_exceptions.md R172, R173). -/
def needState (s : State) (body : Answer) : Answer := if s.block.v then body else raiseFault .noState s

/-- A command's own operand check: at most one per command, after NoState (60_exceptions.md R173). -/
def refuseIf (bad : Bool) (c : FaultCode) (s : State) (body : Answer) : Answer :=
  if bad then raiseFault c s else body

/-- A reset event (70_reset_and_hazards.md R200): `V`, `ERR`, `WS`, `R` to 0, the slots unspecified. DESIGN CHOICE
(log 3, safe): the slots are a free value. The block answers nothing to a reset. -/
def applyReset (s : State) : State :=
  { s with
    block := { Block.reset with slots := Vector.ofFn (Config.resetSlot s.resets s.block.slots) }
    resets := s.resets + 1 }

/-- What the block accepts next. -/
inductive Accepted where
  | idle
  | reset (s : State)
  | command (cw : BitVec 32) (s : State)

/-- The host's next event, taken from the head of what is pending: one at a time, in issue order (20_memory.md R47,
70_reset_and_hazards.md R204). A command's data-in value stands at the port while it executes (10_state.md R31). -/
def State.accept (s : State) : Accepted :=
  match s.pending with
  | [] => .idle
  | .reset :: rest => .reset { s with pending := rest }
  | .command cw din :: rest => .command cw { s with pending := rest, din := din }

/-- `s` with a command presented next. -/
def State.present (s : State) (cw : BitVec 32) (din : BitVec 64) : State :=
  { s with pending := .command cw din :: s.pending }

end Sys2Proof.Machine
end

