-- ==== Sys2Proof/Machine/Operands.lean ====
section
/-! DEFINITION. The operand checks of the commands (60_exceptions.md R173 step 3). Operands are slots, an amount, or
numbers in the command word (30_encoding.md R62 to R65); there are no other operand forms. -/

namespace Sys2Proof.Machine

/-- `amount >= W` (40_arx_primitives.md R102). -/
def amountTooBig (w : Width) (n : BitVec 6) : Bool := decide (w.bits ≤ n.toNat)

/-- `DIN >= 2^W` (44_host_access.md R161). -/
def tooWide (w : Width) (din : BitVec 64) : Bool := decide (2 ^ w.bits ≤ din.toNat)

/-- The four slots of G are not pairwise different (41_quarter_round_g.md R124). -/
def slotsCoincide (ga gb gc gd : SlotIx) : Bool :=
  ga == gb || ga == gc || ga == gd || gb == gc || gb == gd || gc == gd

/-- `R >= 64` (43_initializer.md R148). -/
def roundsTooMany (r : BitVec 8) : Bool := decide (64 ≤ r.toNat)

end Sys2Proof.Machine
end

