-- ==== Sys2Proof/Machine/HostAccess.lean ====
section
/-! DEFINITION. The commands that move values between the host and the block: LDS, RDS, RDST (44_host_access.md). -/

namespace Sys2Proof.Machine

/-- `LDS sd, #value` (R161): the value is the data-in port's. It is never truncated; a value that does not fit is
refused. -/
def execLds (sd : SlotIx) (s : State) : Answer :=
  needState s <| refuseIf (tooWide s.block.ws s.din) .widthMismatch s <|
    complete s { s.block with slots := writeSlot s.block.slots sd (toWord s.block.ws s.din) } 0#64

/-- `RDS sa` (R162): `DOUT = zext_64(S[sa])`, and no state changes. -/
def execRds (sa : SlotIx) (s : State) : Answer :=
  needState s (complete s s.block (toContainer (readSlot s.block.ws s.block.slots sa)))

/-- `RDST` (R163): `DOUT = STAT`, with or without a State. -/
def execRdst (s : State) : Answer := complete s s.block (stat s.block)

end Sys2Proof.Machine
end

