-- ==== Sys2Proof/Machine/Primitives.lean ====
section
/-! DEFINITION. The six ARX primitives: the functions (40_arx_primitives.md R103 to R113) and the commands that apply
them to slots (R101, R104 to R114). -/

namespace Sys2Proof.Machine

variable {w : Width}

/-- `XOR_w(a, b) = a ^ b` (R103). -/
def xorWord (a b : Word w) : Word w := a ^^^ b

/-- `AND_w(a, b) = a & b` (R105). -/
def andWord (a b : Word w) : Word w := a &&& b

/-- `SHL_w(a, n) = trunc_w(a << n)` (R107), used for `n < w` only. -/
def shlWord (a : Word w) (n : Nat) : Word w := a <<< n

/-- `ROR_w(a, 0) = a` and `ROR_w(a, n) = (a >> n) | trunc_w(a << (w - n))` (R109), used for `n < w` only. -/
def rorWord (a : Word w) (n : Nat) : Word w :=
  if n = 0 then a else a >>> n ||| a <<< (w.bits - n)

/-- `ADX_w(a, b) = XOR_w(XOR_w(a, b), SHL_w(AND_w(a, b), 1))` (R111). It is not an addition. -/
def adxWord (a b : Word w) : Word w := xorWord (xorWord a b) (shlWord (andWord a b) 1)

/-- `XRL_w(a, b, v) = ROR_w(XOR_w(a, b), v)` (R113). -/
def xrlWord (a b : Word w) (v : Nat) : Word w := rorWord (xorWord a b) v

/-- Steps 5 and 6 of R101: one slot written at the State's width, and the response `(0, 0)`. -/
def writeResult (sd : SlotIx) (x : Word w) (s : State) : Answer :=
  complete s { s.block with slots := writeSlot s.block.slots sd x } 0#64

/-- A source operand: slot `i` at the State's width (R101 step 4). -/
def source (s : State) (i : SlotIx) : Word s.block.ws := readSlot s.block.ws s.block.slots i

/-- `XOR sd, sa, sb` (R104). -/
def execXor (sd sa sb : SlotIx) (s : State) : Answer :=
  needState s (writeResult sd (xorWord (source s sa) (source s sb)) s)

/-- `AND sd, sa, sb` (R106). -/
def execAnd (sd sa sb : SlotIx) (s : State) : Answer :=
  needState s (writeResult sd (andWord (source s sa) (source s sb)) s)

/-- `SHL sd, sa, n` (R108). -/
def execShl (sd sa : SlotIx) (n : BitVec 6) (s : State) : Answer :=
  needState s <| refuseIf (amountTooBig s.block.ws n) .badAmount s <|
    writeResult sd (shlWord (source s sa) n.toNat) s

/-- `ROR sd, sa, n` (R110). -/
def execRor (sd sa : SlotIx) (n : BitVec 6) (s : State) : Answer :=
  needState s <| refuseIf (amountTooBig s.block.ws n) .badAmount s <|
    writeResult sd (rorWord (source s sa) n.toNat) s

/-- `ADX sd, sa, sb` (R112). -/
def execAdx (sd sa sb : SlotIx) (s : State) : Answer :=
  needState s (writeResult sd (adxWord (source s sa) (source s sb)) s)

/-- `XRL sd, sa, sb, v` (R114). -/
def execXrl (sd sa sb : SlotIx) (v : BitVec 6) (s : State) : Answer :=
  needState s <| refuseIf (amountTooBig s.block.ws v) .badAmount s <|
    writeResult sd (xrlWord (source s sa) (source s sb) v.toNat) s

end Sys2Proof.Machine
end

