-- ==== Sys2Proof/Machine/QuarterRound.lean ====
section
/-! DEFINITION. The quarter-round G: its rotation constants, the function and the command (41_quarter_round_g.md). -/

namespace Sys2Proof.Machine

/-- `RC_32` and `RC_64` (R120). -/
def rotationConstants : Width → Vector Nat 4
  | .w32 => #v[8, 11, 16, 31]
  | .w64 => #v[8, 19, 40, 63]

/-- The four words G works on, in the order of its arguments. -/
structure Quad (w : Width) where
  a : Word w
  b : Word w
  c : Word w
  d : Word w
  deriving DecidableEq, Repr

/-- `G_w(a, b, c, d)`: the eight assignments of R121 in their order, each reading the values left by those before. -/
def quarterRound {w : Width} (q : Quad w) : Quad w :=
  let r := rotationConstants w
  let a := adxWord q.a q.b
  let d := xrlWord a q.d r[0]
  let c := adxWord q.c d
  let b := xrlWord q.b c r[1]
  let a := adxWord a b
  let d := xrlWord a d r[2]
  let c := adxWord c d
  let b := xrlWord b c r[3]
  ⟨a, b, c, d⟩

/-- The four slots of a G as words, in the order of its arguments. -/
def readQuad (w : Width) (S : Slots) (ga gb gc gd : SlotIx) : Quad w :=
  ⟨readSlot w S ga, readSlot w S gb, readSlot w S gc, readSlot w S gd⟩

/-- The four results written back to the four slots (R123 step 5). -/
def writeQuad {w : Width} (S : Slots) (ga gb gc gd : SlotIx) (q : Quad w) : Slots :=
  writeSlot (writeSlot (writeSlot (writeSlot S ga q.a) gb q.b) gc q.c) gd q.d

/-- `G ga, gb, gc, gd` (R123). Equal slots are refused (R124). -/
def execG (ga gb gc gd : SlotIx) (s : State) : Answer :=
  needState s <| refuseIf (slotsCoincide ga gb gc gd) .badOperand s <|
    complete s { s.block with
      slots := writeQuad s.block.slots ga gb gc gd
        (quarterRound (readQuad s.block.ws s.block.slots ga gb gc gd)) } 0#64

end Sys2Proof.Machine
end

