-- ==== Sys2Proof/Machine/Round.lean ====
section
/-! DEFINITION. The round function F: its index groups, the function and the command (42_round_f.md). -/

namespace Sys2Proof.Machine

/-- The sixteen words of a State as values (10_state.md R20, R22). -/
abbrev Words (w : Width) := Vector (Word w) 16

/-- An ordered group of four slots, in the order of G's arguments (R130). -/
structure Group where
  a : SlotIx
  b : SlotIx
  c : SlotIx
  d : SlotIx
  deriving DecidableEq, Repr

/-- The four columns (R130, steps 1 to 4). -/
def columns : List Group := [⟨0, 4, 8, 12⟩, ⟨1, 5, 9, 13⟩, ⟨2, 6, 10, 14⟩, ⟨3, 7, 11, 15⟩]

/-- The four diagonals (R130, steps 5 to 8). -/
def diagonals : List Group := [⟨0, 5, 10, 15⟩, ⟨1, 6, 11, 12⟩, ⟨2, 7, 8, 13⟩, ⟨3, 4, 9, 14⟩]

/-- `(s[i], s[j], s[m], s[n]) <- G_w(s[i], s[j], s[m], s[n])` (R131). -/
def applyGroup {w : Width} (s : Words w) (k : Group) : Words w :=
  let q := quarterRound ⟨s[k.a], s[k.b], s[k.c], s[k.d]⟩
  (((s.set k.a q.a).set k.b q.b).set k.c q.c).set k.d q.d

/-- `F_w(s)`: G on the columns, then on the diagonals, each in order (R131). -/
def roundWords {w : Width} (s : Words w) : Words w := (columns ++ diagonals).foldl applyGroup s

/-- `f` on each of the sixteen, written over the list of them so that the kernel can evaluate it. -/
def mapSixteen {α β : Type} (f : α → β) (s : Vector α 16) : Vector β 16 :=
  ⟨⟨s.toArray.toList.map f⟩, by simp⟩

/-- The sixteen slots as words of width `w`. -/
def readAll (w : Width) (S : Slots) : Words w := mapSixteen (toWord w) S

/-- Sixteen words as containers. -/
def writeAll {w : Width} (s : Words w) : Slots := mapSixteen toContainer s

/-- `(S[0], ..., S[15]) <- F_W(S[0], ..., S[15])` (R133 step 3). -/
def roundSlots (w : Width) (S : Slots) : Slots := writeAll (roundWords (readAll w S))

/-- `F` (R133). `R` is not read. -/
def execF (s : State) : Answer :=
  needState s (complete s { s.block with slots := roundSlots s.block.ws s.block.slots } 0#64)

end Sys2Proof.Machine
end

