-- ==== Sys2Proof/Machine/Initializer.lean ====
section
/-! DEFINITION. The initializer: the parameter word, injection and initialization as functions, and the commands NEW,
INJ and INIT (43_initializer.md). -/

namespace Sys2Proof.Machine

/-- `PW(r, d, w, a) = (r << 26) | (d << 18) | (w << 10) | a` (R140), used for `r <= 63`, `d <= 255`, `a <= 1023` only.
The field `w` is the number 32 or 64. -/
def paramWord (r d w a : Nat) : Nat := r <<< 26 ||| d <<< 18 ||| w <<< 10 ||| a

/-- The constants with the slots they go to: the constant slots `CS` in their order (R141, R142). -/
def constantEntries {w : Width} (ic : InitConstants w) : List (SlotIx × Word w) :=
  [(0, ic.c0), (3, ic.c3), (8, ic.c8), (9, ic.c9), (10, ic.c10), (11, ic.c11), (12, ic.c12), (13, ic.c13),
    (14, ic.c14), (15, ic.c15)]

/-- The parameter word as a `Word_w`: `PW` at width 32, `zext_64(PW)` at width 64 (R140). -/
def paramAsWord (w : Width) (r d a : Nat) : Word w := BitVec.ofNat w.bits (paramWord r d w.bits a)

/-- `INJECT_w(r, d, a, key, nonce)`: steps 1 to 4 of the contract (R143), for a given table of constants. -/
def injectWords {w : Width} (ic : InitConstants w) (r d a : Nat) (key : Vector (Word w) 4)
    (nonce : Vector (Word w) 2) : Words w :=
  let zeroed : Words w := Vector.replicate 16 0#_
  let nonced := (zeroed.set 1 nonce[0]).set 2 nonce[1]
  let keyed := (((nonced.set 4 key[0]).set 5 key[1]).set 6 key[2]).set 7 key[3]
  let injected := (constantEntries ic).foldl (fun s e => s.set e.1 e.2) keyed
  injected.set 14 (xorWord injected[14] (paramAsWord w r d a))

/-- `INIT_w(r, d, a, key, nonce) = F_w^r(INJECT_w(r, d, a, key, nonce))` (R144). -/
def initWords {w : Width} (ic : InitConstants w) (r d a : Nat) (key : Vector (Word w) 4)
    (nonce : Vector (Word w) 2) : Words w :=
  Nat.iterate roundWords r (injectWords ic r d a key nonce)

/-- Steps 4 and 5 of R150 and R151 on the slots: the ten constants, then the parameter word into slot 14. -/
def injectSlots (w : Width) (ic : InitConstants w) (r : BitVec 8) (d : BitVec 8) (a : BitVec 10) (S : Slots) : Slots :=
  let S4 := (constantEntries ic).foldl (fun S e => writeSlot S e.1 e.2) S
  writeSlot S4 14 (xorWord (readSlot w S4 14) (paramAsWord w r.toNat d.toNat a.toNat))

/-- `NEW width, r` (R146). Legal with and without a State; `ERR` is not changed. -/
def execNew (ws : Width) (r : BitVec 8) (s : State) : Answer :=
  complete s { slots := Vector.replicate 16 0#64, ws := ws, r := r, v := true, err := s.block.err } 0#64

/-- `INJ d, a` (R150). -/
def execInj (d : BitVec 8) (a : BitVec 10) (s : State) : Answer :=
  needState s <| refuseIf (roundsTooMany s.block.r) .parameterRange s <|
    complete s { s.block with
      slots := injectSlots s.block.ws (Config.ic s.block.ws) s.block.r d a s.block.slots } 0#64

/-- `INIT d, a` (R151): injection, then `R` rounds. -/
def execInit (d : BitVec 8) (a : BitVec 10) (s : State) : Answer :=
  needState s <| refuseIf (roundsTooMany s.block.r) .parameterRange s <|
    complete s { s.block with
      slots := Nat.iterate (roundSlots s.block.ws) s.block.r.toNat
        (injectSlots s.block.ws (Config.ic s.block.ws) s.block.r d a s.block.slots) } 0#64

end Sys2Proof.Machine
end

