-- ==== Sys2Proof/Machine/Dispatch.lean ====
section
/-! DEFINITION. One arm per command, each one direct call of its meaning. -/

namespace Sys2Proof.Machine

def exec (i : Instr) (s : State) : Host.Outcome State Fault Refusal :=
  match i with
  | .new ws r => Sys2Proof.Machine.execNew ws r s
  | .lds sd => Sys2Proof.Machine.execLds sd s
  | .rds sa => Sys2Proof.Machine.execRds sa s
  | .rdst => Sys2Proof.Machine.execRdst s
  | .xor sd sa sb => Sys2Proof.Machine.execXor sd sa sb s
  | .and sd sa sb => Sys2Proof.Machine.execAnd sd sa sb s
  | .shl sd sa n => Sys2Proof.Machine.execShl sd sa n s
  | .ror sd sa n => Sys2Proof.Machine.execRor sd sa n s
  | .adx sd sa sb => Sys2Proof.Machine.execAdx sd sa sb s
  | .xrl sd sa sb v => Sys2Proof.Machine.execXrl sd sa sb v s
  | .g ga gb gc gd => Sys2Proof.Machine.execG ga gb gc gd s
  | .f => Sys2Proof.Machine.execF s
  | .inj d a => Sys2Proof.Machine.execInj d a s
  | .init d a => Sys2Proof.Machine.execInit d a s

end Sys2Proof.Machine
end

