-- ==== Sys2Proof/Machine/Step.lean ====
section
/-! DEFINITION. One step: the host's next event, if there is one. -/

namespace Sys2Proof.Machine

/-- One step. A command is decoded and executed, or refused as illegal (30_encoding.md R71, 60_exceptions.md R171); a
reset is applied (70_reset_and_hazards.md R200); with nothing pending the block is idle and keeps its state
(60_exceptions.md R190; log 5). -/
def step (s : State) : Host.Outcome State Fault Refusal :=
  match s.accept with
  | .idle => .next s
  | .reset t => .next (applyReset t)
  | .command cw t =>
    match decode cw with
    | .ok i => exec i t
    | .error _ => raiseFault .illegalCommand t

/-- `s` with the command that a table row's bits stand for presented next (log 8). The data-in value is zero. -/
def State.withFetchWord (s : State) (nbits w : Nat) : State := s.present (tableWord nbits w) 0#64

end Sys2Proof.Machine
end

