-- ==== Sys2Proof/WellFormed.lean ====
section
/-! DEFINITION. Assembly lines (30_encoding.md R72, R74), whose operands are plain numbers, and the check that the
operands are in range. An `Instr` needs no check: its fields have exactly the widths of the encoding (log 12). -/

namespace Sys2Proof

/-- One line of assembly: the fourteen commands of R72 and the pseudo-instructions of R74. -/
inductive AsmLine where
  | new (width r : Nat)
  | lds (sd value : Nat)
  | rds (sa : Nat)
  | rdst
  | xor (sd sa sb : Nat)
  | and (sd sa sb : Nat)
  | shl (sd sa n : Nat)
  | ror (sd sa n : Nat)
  | adx (sd sa sb : Nat)
  | xrl (sd sa sb v : Nat)
  | g (ga gb gc gd : Nat)
  | f
  | inj (d a : Nat)
  | init (d a : Nat)
  | rol32 (sd sa n : Nat)
  | rol64 (sd sa n : Nat)
  | mov (sd sa : Nat)
  | initState (width r d a k0 k1 k2 k3 n0 n1 : Nat)
  deriving DecidableEq, Repr

/-- A slot operand is `s0` to `s15` (R72). -/
def slotInRange (i : Nat) : Bool := decide (i < 16)

/-- `width` is `32` or `64` (R72). -/
def widthInRange (w : Nat) : Bool := w == 32 || w == 64

/-- The operand ranges of R72's table and the conditions of R74's. An amount is not checked against the width,
"because it does not know `W`" (R72). -/
def AsmLine.wellFormed : AsmLine → Bool
  | .new width r => widthInRange width && decide (r < 256)
  | .lds sd value => slotInRange sd && decide (value < 2 ^ 64)
  | .rds sa => slotInRange sa
  | .rdst => true
  | .xor sd sa sb => slotInRange sd && slotInRange sa && slotInRange sb
  | .and sd sa sb => slotInRange sd && slotInRange sa && slotInRange sb
  | .shl sd sa n => slotInRange sd && slotInRange sa && decide (n < 64)
  | .ror sd sa n => slotInRange sd && slotInRange sa && decide (n < 64)
  | .adx sd sa sb => slotInRange sd && slotInRange sa && slotInRange sb
  | .xrl sd sa sb v => slotInRange sd && slotInRange sa && slotInRange sb && decide (v < 64)
  | .g ga gb gc gd => slotInRange ga && slotInRange gb && slotInRange gc && slotInRange gd
  | .f => true
  | .inj d a => decide (d < 256) && decide (a < 1024)
  | .init d a => decide (d < 256) && decide (a < 1024)
  | .rol32 sd sa n => slotInRange sd && slotInRange sa && decide (n < 32)
  | .rol64 sd sa n => slotInRange sd && slotInRange sa && decide (n < 64)
  | .mov sd sa => slotInRange sd && slotInRange sa
  | .initState width r d a k0 k1 k2 k3 n0 n1 =>
    widthInRange width && decide (r < 64) && decide (d < 256) && decide (a < 1024) &&
      [k0, k1, k2, k3, n0, n1].all (fun x => decide (x < 2 ^ width))

end Sys2Proof
end

