-- ==== Sys2Proof/Machine/Assembler.lean ====
section
/-! DEFINITION. The assembler (30_encoding.md R72 to R74): a well-formed line becomes the commands the host issues. -/

namespace Sys2Proof.Machine

/-- A slot operand's number. -/
def slotOf (i : Nat) : SlotIx := Fin.ofNat 16 i

/-- The width operand of NEW: `32` or `64` (R72). -/
def widthOf (n : Nat) : Width := if n = 64 then .w64 else .w32

/-- The rotate-right amount that rotates left by `n` at width `w` (R74). -/
def rolAmount (w n : Nat) : BitVec 6 := BitVec.ofNat 6 ((w - n) % w)

/-- A command with its data-in value, which only LDS uses. -/
abbrev Issued := Instr × BitVec 64

/-- `LDS sd, #value`. -/
def issueLds (sd value : Nat) : Issued := (.lds (slotOf sd), BitVec.ofNat 64 value)

/-- The commands a line stands for (R72's table, R74's expansions). It is meant for well-formed lines; `assemble`
refuses the others. -/
def expand : AsmLine → List Issued
  | .new width r => [(.new (widthOf width) (BitVec.ofNat 8 r), 0)]
  | .lds sd value => [issueLds sd value]
  | .rds sa => [(.rds (slotOf sa), 0)]
  | .rdst => [(.rdst, 0)]
  | .xor sd sa sb => [(.xor (slotOf sd) (slotOf sa) (slotOf sb), 0)]
  | .and sd sa sb => [(.and (slotOf sd) (slotOf sa) (slotOf sb), 0)]
  | .shl sd sa n => [(.shl (slotOf sd) (slotOf sa) (BitVec.ofNat 6 n), 0)]
  | .ror sd sa n => [(.ror (slotOf sd) (slotOf sa) (BitVec.ofNat 6 n), 0)]
  | .adx sd sa sb => [(.adx (slotOf sd) (slotOf sa) (slotOf sb), 0)]
  | .xrl sd sa sb v => [(.xrl (slotOf sd) (slotOf sa) (slotOf sb) (BitVec.ofNat 6 v), 0)]
  | .g ga gb gc gd => [(.g (slotOf ga) (slotOf gb) (slotOf gc) (slotOf gd), 0)]
  | .f => [(.f, 0)]
  | .inj d a => [(.inj (BitVec.ofNat 8 d) (BitVec.ofNat 10 a), 0)]
  | .init d a => [(.init (BitVec.ofNat 8 d) (BitVec.ofNat 10 a), 0)]
  | .rol32 sd sa n => [(.ror (slotOf sd) (slotOf sa) (rolAmount 32 n), 0)]
  | .rol64 sd sa n => [(.ror (slotOf sd) (slotOf sa) (rolAmount 64 n), 0)]
  | .mov sd sa => [(.and (slotOf sd) (slotOf sa) (slotOf sa), 0)]
  | .initState width r d a k0 k1 k2 k3 n0 n1 =>
    [(.new (widthOf width) (BitVec.ofNat 8 r), 0), issueLds 1 n0, issueLds 2 n1, issueLds 4 k0, issueLds 5 k1,
      issueLds 6 k2, issueLds 7 k3, (.init (BitVec.ofNat 8 d) (BitVec.ofNat 10 a), 0)]

/-- The event of issuing a command. -/
def toEvent (c : Issued) : HostEvent := .command (encode c.1) c.2

/-- The events a line stands for; none for a line with an operand out of range, which "the assembler refuses"
(R72). -/
def assemble (l : AsmLine) : Option (List HostEvent) :=
  if l.wellFormed then some ((expand l).map toEvent) else none

end Sys2Proof.Machine
end

