-- ==== Sys2Proof/Safety.lean ====
section
/-! DEFINITION. The terms claims are stated in: the invariant of the block, runs without fault, and the relations that
say what a command left alone. -/

namespace Sys2Proof.Machine

/-- Every word of the State fits its width: `W = 32 → S[i] < 2^32` (10_state.md R22). Before a State exists the slots
are unspecified (R34), so nothing is asked of them. -/
abbrev Block.fitsWidth (b : Block) : Prop := b.v = true → ∀ i : SlotIx, (b.slots[i]).toNat < 2 ^ b.ws.bits

/-- `W`, `R`, `V` and `ERR` are the same. -/
abbrev Block.sameControl (b c : Block) : Prop := c.ws = b.ws ∧ c.r = b.r ∧ c.v = b.v ∧ c.err = b.err

/-- Every slot but those in `changed` holds the same container. -/
abbrev Block.sameSlotsBut (changed : List SlotIx) (b c : Block) : Prop :=
  ∀ i : SlotIx, i ∉ changed → c.slots[i] = b.slots[i]

/-- The command was answered once, with `r`, and the exchange with the host is otherwise as it was. -/
abbrev State.answeredWith (r : Response) (s t : State) : Prop :=
  t.responses = s.responses ++ [r] ∧ t.pending = s.pending ∧ t.din = s.din ∧ t.resets = s.resets

/-- The response of a command that returns no data (10_state.md R31). -/
abbrev Response.ok : Response := ⟨0#3, 0#64⟩

/-- The response of a faulting command (60_exceptions.md R174). -/
abbrev Response.faulted (c : FaultCode) : Response := ⟨c.code, 0#64⟩

/-- No reset is pending. -/
abbrev State.noResetPending (s : State) : Prop := HostEvent.reset ∉ s.pending

/-- `n` steps, ending at the first one that gives no next state. -/
def runSteps : Nat → State → Host.Outcome State Fault Refusal
  | 0, s => .next s
  | n + 1, s =>
    match step s with
    | .next t => runSteps n t
    | .fault r => .fault r
    | .refused r => .refused r

/-- The slots a command reads (10_state.md R23, the table). INJ's result uses no slot: the constant slots are
overwritten, and the nonce and key slots are kept. INIT's rounds therefore read the key and nonce slots' words and the
injected ones (43_initializer.md R147), so those six are listed for it. -/
def slotsRead : Instr → List SlotIx
  | .new _ _ => []
  | .lds _ => []
  | .rds sa => [sa]
  | .rdst => []
  | .xor _ sa sb => [sa, sb]
  | .and _ sa sb => [sa, sb]
  | .shl _ sa _ => [sa]
  | .ror _ sa _ => [sa]
  | .adx _ sa sb => [sa, sb]
  | .xrl _ sa sb _ => [sa, sb]
  | .g ga gb gc gd => [ga, gb, gc, gd]
  | .f => [0, 1, 2, 3, 4, 5, 6, 7, 8, 9, 10, 11, 12, 13, 14, 15]
  | .inj _ _ => []
  | .init _ _ => [1, 2, 4, 5, 6, 7]

/-- The slots a command writes (10_state.md R23, the table). -/
def slotsWritten : Instr → List SlotIx
  | .new _ _ => [0, 1, 2, 3, 4, 5, 6, 7, 8, 9, 10, 11, 12, 13, 14, 15]
  | .lds sd => [sd]
  | .rds _ => []
  | .rdst => []
  | .xor sd _ _ => [sd]
  | .and sd _ _ => [sd]
  | .shl sd _ _ => [sd]
  | .ror sd _ _ => [sd]
  | .adx sd _ _ => [sd]
  | .xrl sd _ _ _ => [sd]
  | .g ga gb gc gd => [ga, gb, gc, gd]
  | .f => [0, 1, 2, 3, 4, 5, 6, 7, 8, 9, 10, 11, 12, 13, 14, 15]
  | .inj _ _ => [0, 3, 8, 9, 10, 11, 12, 13, 14, 15]
  | .init _ _ => [0, 1, 2, 3, 4, 5, 6, 7, 8, 9, 10, 11, 12, 13, 14, 15]

/-- The match and mask words of the opcode map as 30_encoding.md R66 prints them. -/
def printedRows : List (BitVec 32 × BitVec 32) :=
  [(0x04000000, 0xFFFFFE00), (0x08000000, 0xFC3FFFFF), (0x0C000000, 0xFFC3FFFF), (0x10000000, 0xFFFFFFFF),
    (0x20000000, 0xFC003FFF), (0x24000000, 0xFC003FFF), (0x28000000, 0xFC03FFC0), (0x2C000000, 0xFC03FFC0),
    (0x30000000, 0xFC003FFF), (0x34000000, 0xFC003FC0), (0x40000000, 0xFC0003FF), (0x44000000, 0xFFFFFFFF),
    (0x48000000, 0xFC03FC00), (0x4C000000, 0xFC03FC00)]

/-- The match and mask of a command's row of the same map. -/
def printedRow : Instr → BitVec 32 × BitVec 32
  | .new _ _ => (0x04000000, 0xFFFFFE00)
  | .lds _ => (0x08000000, 0xFC3FFFFF)
  | .rds _ => (0x0C000000, 0xFFC3FFFF)
  | .rdst => (0x10000000, 0xFFFFFFFF)
  | .xor _ _ _ => (0x20000000, 0xFC003FFF)
  | .and _ _ _ => (0x24000000, 0xFC003FFF)
  | .shl _ _ _ => (0x28000000, 0xFC03FFC0)
  | .ror _ _ _ => (0x2C000000, 0xFC03FFC0)
  | .adx _ _ _ => (0x30000000, 0xFC003FFF)
  | .xrl _ _ _ _ => (0x34000000, 0xFC003FC0)
  | .g _ _ _ _ => (0x40000000, 0xFC0003FF)
  | .f => (0x44000000, 0xFFFFFFFF)
  | .inj _ _ => (0x48000000, 0xFC03FC00)
  | .init _ _ => (0x4C000000, 0xFC03FC00)

/-- Execute commands one after the other, each with its data-in value at the port, ending at the first one that gives
no next state. -/
def execAll : List (Instr × BitVec 64) → State → Host.Outcome State Fault Refusal
  | [], s => .next s
  | (i, din) :: rest, s =>
    match exec i { s with din := din } with
    | .next t => execAll rest t
    | .fault r => .fault r
    | .refused r => .refused r

/-- The commands, run from `s`, leave slot `i` alone: each does not write it, or does not complete (a command that
faults writes nothing, 60_exceptions.md R174). -/
def leavesSlot (i : SlotIx) : List (Instr × BitVec 64) → State → Prop
  | [], _ => True
  | (c, din) :: rest, s => ∀ t, exec c { s with din := din } = .next t →
      (i ∉ slotsWritten c ∨ t.responses.getLast?.map Response.st ≠ some 0#3) ∧ leavesSlot i rest t

/-- The events present these commands in this order: each is a word that decodes to its command, with the command's
data-in value. -/
abbrev presents (events : List HostEvent) (commands : List (Instr × BitVec 64)) : Prop :=
  List.Forall₂ (fun e c => ∃ cw, e = .command cw c.2 ∧ decode cw = .ok c.1) events commands

end Sys2Proof.Machine
end

