-- ==== Sys2Proof/Certificates/Slice0/Obligations.lean ====
section
/-! DEFINITION. The statements for the provers. Each formalises rules of spec/ named in OBLIGATIONS.json; a statement
that rests on a choice of the model says so in its docstring. -/

open Sys2Proof Sys2Proof.Machine

/-! ## Reset and the invariant -/

/-- A reset event puts `V`, `ERR`, `WS` and `R` to 0 whatever the state before; the block answers nothing and the
next event of the host comes next (70_reset_and_hazards.md section 1). -/
def Obligations.ResetEventPutsControlToReset : Prop :=
  ∀ (s : State) (rest : List HostEvent), s.pending = .reset :: rest →
    ∃ t, step s = .next t ∧ t.block.v = false ∧ t.block.err = none ∧ t.block.ws = .w32 ∧ t.block.r = 0#8 ∧
      stat t.block = 0#64 ∧ t.pending = rest ∧ t.responses = s.responses

/-- 10_state.md R34: the reset values, `STAT` reads 0, and the slots of a block without a State are unobservable:
whatever they hold, every sequence of events gives the same responses, and once a State exists the two blocks are
equal. No value of a slot at reset is used. That a run goes on with the idle step when no event is left is the model's
reading of 60_exceptions.md R190 (log 5). -/
def Obligations.ResetValuesAndUnobservableSlots : Prop :=
  (State.reset.block.v = false ∧ State.reset.block.err = none ∧ State.reset.block.ws = .w32 ∧
    State.reset.block.r = 0#8 ∧ stat State.reset.block = 0#64) ∧
  ∀ (n : Nat) (s : State) (other : Slots), s.block.v = false →
    ∃ t u, runSteps n s = .next t ∧ runSteps n { s with block := { s.block with slots := other } } = .next u ∧
      t.responses = u.responses ∧ t.pending = u.pending ∧ t.block.sameControl u.block ∧
      (t.block.v = true → t.block = u.block)

/-- The invariant holds at reset. -/
def Obligations.WordsFitTheWidthAtReset : Prop := State.reset.block.fitsWidth

/-- Every step keeps the words of an existing State within its width (10_state.md R22: `W = 32 → S[i] < 2^32`). -/
def Obligations.StepKeepsWordsWithinWidth : Prop :=
  ∀ s t : State, s.block.fitsWidth → step s = .next t → t.block.fitsWidth

/-- Every response keeps to the port's rules: the status code 7 never occurs, and a response with a fault code
carries no data (60_exceptions.md R170, 10_state.md R31). -/
def Obligations.StepKeepsResponsesLegal : Prop :=
  ∀ s t : State, (∀ r ∈ s.responses, r.st ≠ 7#3 ∧ (r.st ≠ 0#3 → r.dout = 0#64)) → step s = .next t →
    ∀ r ∈ t.responses, r.st ≠ 7#3 ∧ (r.st ≠ 0#3 → r.dout = 0#64)

/-! ## Encoding -/

/-- Decoding the word of any command gives the command back. -/
def Obligations.DecodeOfEncodeIsTheCommand : Prop := ∀ i : Instr, decode (encode i) = .ok i

/-- Each legal word is the word of the one command it decodes to. -/
def Obligations.EncodeOfDecodeIsTheWord : Prop :=
  ∀ (cw : BitVec 32) (i : Instr), decode cw = .ok i → encode i = cw

/-- 30_encoding.md R66: a word is legal exactly when it matches a row of the printed map, the row it matches is that of
the command it decodes to, and no word matches two. -/
def Obligations.WordIsLegalExactlyWhenOneRowMatches : Prop :=
  printedRows.length = 14 ∧
  ∀ cw : BitVec 32,
    ((∃ i, decode cw = .ok i) ↔ ∃ row ∈ printedRows, cw &&& row.2 = row.1) ∧
    (∀ i, decode cw = .ok i → printedRow i ∈ printedRows ∧ cw &&& (printedRow i).2 = (printedRow i).1) ∧
    (∀ row ∈ printedRows, ∀ other ∈ printedRows,
      cw &&& row.2 = row.1 → cw &&& other.2 = other.1 → row = other)

/-- Words written out in the spec decode to the commands they stand for (30_encoding.md section 6,
96_vector_supplement.md E1). -/
def Obligations.WrittenWordsDecodeAsTheSpecSays : Prop :=
  decode 0x04000102#32 = .ok (.new .w64 2) ∧ decode 0x0C380000#32 = .ok (.rds 14) ∧
  decode 0x21404000#32 = .ok (.xor 5 0 1) ∧ decode 0x2CC0000D#32 = .ok (.ror 3 0 13) ∧
  decode 0x3500400B#32 = .ok (.xrl 4 0 1 11) ∧ decode 0x405AF000#32 = .ok (.g 1 6 11 12) ∧
  decode 0x44000000#32 = .ok .f ∧ decode 0x4FFC03FF#32 = .ok (.init 255 1023)

/-- 60_exceptions.md R171: a word that matches no row raises IllegalCommand in every state, with or without a State,
and changes nothing but `ERR`. -/
def Obligations.IllegalWordIsRefusedInEveryState : Prop :=
  ∀ (s : State) (cw : BitVec 32) (din : BitVec 64) (rest : List HostEvent),
    s.pending = .command cw din :: rest → (∀ row ∈ printedRows, cw &&& row.2 ≠ row.1) →
    ∃ t, step s = .next t ∧ t.responses = s.responses ++ [⟨1#3, 0#64⟩] ∧ t.pending = rest ∧
      t.block = { s.block with err := stickyErr s.block.err .illegalCommand }

/-! ## The step -/

/-- A step executes the command its word decodes to, with the data-in value at the port and the event taken from the
host's sequence; with nothing pending it changes nothing (the idle step is the model's reading of R190, log 5). -/
def Obligations.StepExecutesTheDecodedCommand : Prop :=
  (∀ (s : State) (cw : BitVec 32) (din : BitVec 64) (rest : List HostEvent) (i : Instr),
    s.pending = .command cw din :: rest → decode cw = .ok i →
      step s = exec i { s with pending := rest, din := din }) ∧
  (∀ s : State, s.pending = [] → step s = .next s)

/-- Every step gives a next state, and a command is answered exactly once, whatever it is and whether or not it
faults; the position in the host's sequence advances by one (70_reset_and_hazards.md section 3, 60_exceptions.md
section 3). That a state with nothing pending has a next state too, itself, is the model's reading of 60_exceptions.md
R190 (log 5). -/
def Obligations.EveryStepAnswersEachCommandOnce : Prop :=
  (∀ s : State, ∃ t, step s = .next t) ∧
  (∀ (s t : State) (cw : BitVec 32) (din : BitVec 64) (rest : List HostEvent),
    s.pending = .command cw din :: rest → step s = .next t →
      ∃ r : Response, t.responses = s.responses ++ [r] ∧ t.pending = rest ∧ t.resets = s.resets)

/-- `W`, `R` and `V` are written by NEW and by reset and by nothing else (10_state.md section 5). -/
def Obligations.ControlIsWrittenOnlyByNewAndReset : Prop :=
  ∀ s t : State, step s = .next t →
    (t.block.ws = s.block.ws ∧ t.block.r = s.block.r ∧ t.block.v = s.block.v) ∨
    (∃ rest, s.pending = .reset :: rest ∧ t.block.ws = .w32 ∧ t.block.r = 0#8 ∧ t.block.v = false) ∨
    (∃ cw din rest ws r, s.pending = .command cw din :: rest ∧ decode cw = .ok (.new ws r) ∧
      t.block.ws = ws ∧ t.block.r = r ∧ t.block.v = true)

/-- Over any number of steps without a reset, the first fault code stays in `ERR` and `V` stays set (10_state.md
section 5: only reset clears them). -/
def Obligations.OnlyResetClearsErrAndValid : Prop :=
  ∀ (n : Nat) (s t : State), s.noResetPending → runSteps n s = .next t →
    (∀ c, s.block.err = some c → t.block.err = some c) ∧ (s.block.v = true → t.block.v = true)

/-! ## Faults -/

/-- 60_exceptions.md R174: a command whose response carries a fault code changes nothing but `ERR`, which takes the
code if it was 0 and is kept otherwise; its data-out is 0. A command answered with 0 leaves `ERR` as it was. -/
def Obligations.FaultChangesOnlyErr : Prop :=
  ∀ (s t : State) (cw : BitVec 32) (din : BitVec 64) (rest : List HostEvent) (r : Response),
    s.pending = .command cw din :: rest → step s = .next t → t.responses = s.responses ++ [r] →
      (r.st ≠ 0#3 → r.dout = 0#64 ∧ t.block = { s.block with err := t.block.err } ∧
        (s.block.err = none → errCode t.block.err = r.st) ∧
        (s.block.err ≠ none → t.block.err = s.block.err)) ∧
      (r.st = 0#3 → t.block.err = s.block.err)

/-- 60_exceptions.md R172, R175 to R178: a decoded command is answered with a fault code exactly when that fault's rule
says so, and never with IllegalCommand. -/
def Obligations.FaultsExactlyWhereTheRulesSay : Prop :=
  ∀ (i : Instr) (s t : State) (c : FaultCode), exec i s = .next t →
    (t.responses = s.responses ++ [⟨c.code, 0#64⟩] ↔
    match c with
    | .illegalCommand => False
    | .noState => s.block.v = false ∧ i ≠ .rdst ∧ (∀ ws r, i ≠ .new ws r)
    | .widthMismatch => s.block.v = true ∧ s.block.ws = .w32 ∧ 2 ^ 32 ≤ s.din.toNat ∧ ∃ sd, i = .lds sd
    | .badAmount => s.block.v = true ∧ s.block.ws = .w32 ∧ ∃ n : BitVec 6, 32 ≤ n.toNat ∧
        ((∃ sd sa, i = .shl sd sa n) ∨ (∃ sd sa, i = .ror sd sa n) ∨ ∃ sd sa sb, i = .xrl sd sa sb n)
    | .badOperand => s.block.v = true ∧ ∃ ga gb gc gd, i = .g ga gb gc gd ∧ ¬ [ga, gb, gc, gd].Nodup
    | .parameterRange => s.block.v = true ∧ 64 ≤ s.block.r.toNat ∧
        ((∃ d a, i = .inj d a) ∨ ∃ d a, i = .init d a))

/-- 60_exceptions.md R172: without a State every command but NEW and RDST raises NoState, and those two do not. -/
def Obligations.NoStateRefusesAllButNewAndRdst : Prop :=
  ∀ (i : Instr) (s : State), s.block.v = false →
    ((i ≠ .rdst ∧ ∀ ws r, i ≠ .new ws r) →
      ∃ t, exec i s = .next t ∧ s.answeredWith (.faulted .noState) t ∧
        t.block = { s.block with err := stickyErr s.block.err .noState }) ∧
    ((i = .rdst ∨ ∃ ws r, i = .new ws r) →
      ∃ t r, exec i s = .next t ∧ s.answeredWith r t ∧ r.st = 0#3)

/-- 60_exceptions.md R175: LDS of a value that does not fit. -/
def Obligations.LdsRefusesAValueThatDoesNotFit : Prop :=
  ∀ (sd : SlotIx) (s : State), s.block.v = true → s.block.ws = .w32 → s.din.extractLsb' 32 32 ≠ 0#32 →
    ∃ t, exec (.lds sd) s = .next t ∧ s.answeredWith (.faulted .widthMismatch) t ∧
      t.block = { s.block with err := stickyErr s.block.err .widthMismatch }

/-- 40_arx_primitives.md R102: an amount of W or more is refused and changes nothing but `ERR`; it is possible at
width 32 only; every smaller amount, 0 among them, is accepted. -/
def Obligations.AmountIsRefusedExactlyWhenAtLeastTheWidth : Prop :=
  ∀ (sd sa sb : SlotIx) (n : BitVec 6) (s : State), s.block.v = true →
    ∀ i ∈ [Instr.shl sd sa n, Instr.ror sd sa n, Instr.xrl sd sa sb n],
      (s.block.ws.bits ≤ n.toNat → s.block.ws = .w32 ∧
        ∃ t, exec i s = .next t ∧ s.answeredWith (.faulted .badAmount) t ∧
          t.block = { s.block with err := stickyErr s.block.err .badAmount }) ∧
      (n.toNat < s.block.ws.bits → ∃ t, exec i s = .next t ∧ s.answeredWith .ok t)

/-- 41_quarter_round_g.md R124: G on coinciding slots faults and changes nothing but `ERR`. -/
def Obligations.GRefusesCoincidingSlots : Prop :=
  ∀ (ga gb gc gd : SlotIx) (s : State), s.block.v = true → ¬ [ga, gb, gc, gd].Nodup →
    ∃ t, exec (.g ga gb gc gd) s = .next t ∧ s.answeredWith (.faulted .badOperand) t ∧
      t.block = { s.block with err := stickyErr s.block.err .badOperand }

/-- 60_exceptions.md R178: INJ and INIT with a round count of 64 or more. -/
def Obligations.InjAndInitRefuseTooManyRounds : Prop :=
  ∀ (d : BitVec 8) (a : BitVec 10) (s : State), s.block.v = true → 64 ≤ s.block.r.toNat →
    ∀ i ∈ [Instr.inj d a, Instr.init d a],
      ∃ t, exec i s = .next t ∧ s.answeredWith (.faulted .parameterRange) t ∧
        t.block = { s.block with err := stickyErr s.block.err .parameterRange }

/-- A run without a reset, from `ERR = 0`, ends with `ERR = 0` exactly when every response of it had `ST = 0`
(60_exceptions.md section 3, R185's last sentence). The idle steps that `n` may count are the model's reading of R190
(log 5). -/
def Obligations.ErrIsZeroExactlyWhenEveryResponseIsOk : Prop :=
  ∀ (n : Nat) (s t : State), s.noResetPending → s.block.err = none → runSteps n s = .next t →
    ∃ answers, t.responses = s.responses ++ answers ∧
      (t.block.err = none ↔ ∀ r ∈ answers, r.st = 0#3)

/-- `ERR` has no effect on execution: with another value of it a command does the same to the slots and to `W`, `R`,
`V`, and answers the same unless it is RDST, which reads it (60_exceptions.md section 3). -/
def Obligations.ErrDoesNotAffectExecution : Prop :=
  ∀ (i : Instr) (s t : State) (e : Option FaultCode), exec i s = .next t →
    ∃ u, exec i { s with block := { s.block with err := e } } = .next u ∧
      u.block.slots = t.block.slots ∧ u.block.ws = t.block.ws ∧ u.block.r = t.block.r ∧ u.block.v = t.block.v ∧
      (i ≠ .rdst → u.responses = t.responses)

/-! ## What commands leave alone, and what they depend on -/

/-- The frame of every command (10_state.md section 2, the table of slots written): the slots a command does not
write keep their containers; `W`, `R`, `V` change for NEW only; `ERR` changes only from 0 and only with a fault; the
data-in port, the pending events and the reset count are untouched. -/
def Obligations.CommandsChangeOnlyTheSlotsTheyWrite : Prop :=
  ∀ (i : Instr) (s t : State), exec i s = .next t →
    s.block.sameSlotsBut (slotsWritten i) t.block ∧
    ((∀ ws r, i ≠ .new ws r) → t.block.ws = s.block.ws ∧ t.block.r = s.block.r ∧ t.block.v = s.block.v) ∧
    (t.block.err = s.block.err ∨ s.block.err = none ∧ t.block.err ≠ none ∧ t.block.slots = s.block.slots) ∧
    (∃ r, s.answeredWith r t)

/-- What a command writes and answers depends on the slots it reads and on nothing else of the slots (10_state.md
section 2, the table of slots read). For INIT the slots read are the key and nonce slots, as 43_initializer.md R147
says: the ten others are overwritten before the rounds. -/
def Obligations.CommandsDependOnlyOnTheSlotsTheyRead : Prop :=
  ∀ (i : Instr) (s t : State) (other : Slots), (∀ j ∈ slotsRead i, other[j] = s.block.slots[j]) →
    exec i s = .next t →
    ∃ u, exec i { s with block := { s.block with slots := other } } = .next u ∧ u.responses = t.responses ∧
      t.block.sameControl u.block ∧
      (t.responses.getLast?.map Response.st = some 0#3 →
        ∀ j ∈ slotsWritten i, u.block.slots[j] = t.block.slots[j])

/-! ## Host access and NEW -/

/-- NEW in every state: a zeroed State of the given width and round count; `ERR` is kept (43_initializer.md
section 4). -/
def Obligations.NewCreatesAZeroedState : Prop :=
  ∀ (ws : Width) (r : BitVec 8) (s : State),
    ∃ t, exec (.new ws r) s = .next t ∧ s.answeredWith .ok t ∧ (∀ i : SlotIx, t.block.slots[i] = 0#64) ∧
      t.block.ws = ws ∧ t.block.r = r ∧ t.block.v = true ∧ t.block.err = s.block.err

/-- LDS of a value that fits writes exactly that number to exactly that slot (44_host_access.md). -/
def Obligations.LdsWritesTheDataInValue : Prop :=
  ∀ (sd : SlotIx) (s : State), s.block.v = true → s.din.toNat < 2 ^ s.block.ws.bits →
    ∃ t, exec (.lds sd) s = .next t ∧ s.answeredWith .ok t ∧ t.block.slots[sd] = s.din ∧
      s.block.sameSlotsBut [sd] t.block ∧ s.block.sameControl t.block

/-- RDS answers the slot's word, zero-extended, and changes no state (44_host_access.md). -/
def Obligations.RdsAnswersTheSlot : Prop :=
  ∀ (sa : SlotIx) (s : State), s.block.v = true →
    ∃ t r, exec (.rds sa) s = .next t ∧ s.answeredWith r t ∧ t.block = s.block ∧ r.st = 0#3 ∧
      r.dout.toNat = (s.block.slots[sa]).toNat % 2 ^ s.block.ws.bits ∧
      (s.block.fitsWidth → r.dout = s.block.slots[sa])

/-- RDST answers `STAT = R + 2^8 WS + 2^9 V + 2^10 ERR` in every state and changes none (10_state.md section 5,
44_host_access.md). -/
def Obligations.RdstAnswersTheStatusWord : Prop :=
  ∀ s : State,
    ∃ t r, exec .rdst s = .next t ∧ s.answeredWith r t ∧ t.block = s.block ∧ r.st = 0#3 ∧
      r.dout.toNat = s.block.r.toNat + 2 ^ 8 * (if s.block.ws = .w64 then 1 else 0) +
        2 ^ 9 * (if s.block.v then 1 else 0) + 2 ^ 10 * (errCode s.block.err).toNat

/-- A read returns what the most recent earlier write left in the slot (20_memory.md R47), whatever commands that do
not write the slot, or fault, stand between, and twice the same, since reading has no side effect (R45). The three
clauses: the write is any command `w` after which a State exists; it is an LDS that fits, and the read answers its
value; it is NEW, and the read answers 0. -/
def Obligations.ReadsReturnTheLastWrite : Prop :=
  (∀ (i : SlotIx) (w : Instr × BitVec 64) (between : List (Instr × BitVec 64)) (s t : State),
    exec w.1 { s with din := w.2 } = .next t → t.block.v = true → leavesSlot i between t →
    ∃ u earlier x, execAll (w :: between ++ [(.rds i, 0), (.rds i, 0)]) s = .next u ∧
      earlier.length = s.responses.length + 1 + between.length ∧ u.responses = earlier ++ [⟨0#3, x⟩, ⟨0#3, x⟩] ∧
      x.toNat = (t.block.slots[i]).toNat % 2 ^ t.block.ws.bits) ∧
  (∀ (i : SlotIx) (x : BitVec 64) (between : List (Instr × BitVec 64)) (s : State), s.block.v = true →
    x.toNat < 2 ^ s.block.ws.bits → (∀ t, exec (.lds i) { s with din := x } = .next t → leavesSlot i between t) →
    ∃ u earlier, execAll ((.lds i, x) :: between ++ [(.rds i, 0), (.rds i, 0)]) s = .next u ∧
      earlier.length = s.responses.length + 1 + between.length ∧ u.responses = earlier ++ [⟨0#3, x⟩, ⟨0#3, x⟩]) ∧
  (∀ (i : SlotIx) (ws : Width) (r : BitVec 8) (between : List (Instr × BitVec 64)) (s : State),
    (∀ t, exec (.new ws r) { s with din := 0 } = .next t → leavesSlot i between t) →
    ∃ u earlier, execAll ((.new ws r, 0) :: between ++ [(.rds i, 0), (.rds i, 0)]) s = .next u ∧
      earlier.length = s.responses.length + 1 + between.length ∧ u.responses = earlier ++ [.ok, .ok])

/-! ## The primitives -/

/-- XOR: each bit of the result is the exclusive-or of the bits of the sources, which are read before the
destination is written (40_arx_primitives.md section 2). -/
def Obligations.XorCommandWritesTheBitwiseXor : Prop :=
  ∀ (sd sa sb : SlotIx) (s : State), s.block.v = true → s.block.fitsWidth →
    ∃ t, exec (.xor sd sa sb) s = .next t ∧ s.answeredWith .ok t ∧
      (∀ k : Nat, (t.block.slots[sd]).getLsbD k =
        ((s.block.slots[sa]).getLsbD k ^^ (s.block.slots[sb]).getLsbD k)) ∧
      s.block.sameSlotsBut [sd] t.block ∧ s.block.sameControl t.block

/-- AND: each bit of the result is 1 exactly when both bits are (40_arx_primitives.md section 3). -/
def Obligations.AndCommandWritesTheBitwiseAnd : Prop :=
  ∀ (sd sa sb : SlotIx) (s : State), s.block.v = true → s.block.fitsWidth →
    ∃ t, exec (.and sd sa sb) s = .next t ∧ s.answeredWith .ok t ∧
      (∀ k : Nat, (t.block.slots[sd]).getLsbD k =
        ((s.block.slots[sa]).getLsbD k && (s.block.slots[sb]).getLsbD k)) ∧
      s.block.sameSlotsBut [sd] t.block ∧ s.block.sameControl t.block

/-- SHL by `n < W`: the result is `(a * 2^n) mod 2^W` (40_arx_primitives.md section 4). -/
def Obligations.ShlCommandMultipliesByAPowerOfTwo : Prop :=
  ∀ (sd sa : SlotIx) (n : BitVec 6) (s : State), s.block.v = true → s.block.fitsWidth →
    n.toNat < s.block.ws.bits →
    ∃ t, exec (.shl sd sa n) s = .next t ∧ s.answeredWith .ok t ∧
      (t.block.slots[sd]).toNat = (s.block.slots[sa]).toNat * 2 ^ n.toNat % 2 ^ s.block.ws.bits ∧
      s.block.sameSlotsBut [sd] t.block ∧ s.block.sameControl t.block

/-- ROR by `n < W`: bit `k` of the result is bit `(k + n) mod W` of the source, for `n = 0` too
(40_arx_primitives.md section 5). -/
def Obligations.RorCommandRotatesRight : Prop :=
  ∀ (sd sa : SlotIx) (n : BitVec 6) (s : State), s.block.v = true → s.block.fitsWidth →
    n.toNat < s.block.ws.bits →
    ∃ t, exec (.ror sd sa n) s = .next t ∧ s.answeredWith .ok t ∧
      (∀ k : Nat, (t.block.slots[sd]).getLsbD k =
        (decide (k < s.block.ws.bits) && (s.block.slots[sa]).getLsbD ((k + n.toNat) % s.block.ws.bits))) ∧
      s.block.sameSlotsBut [sd] t.block ∧ s.block.sameControl t.block

/-- ADX: bit 0 is `a[0] ^ b[0]`, bit `k` of the others is `a[k] ^ b[k] ^ (a[k-1] & b[k-1])`, and the term out of the
top is discarded (40_arx_primitives.md section 6). -/
def Obligations.AdxCommandAddsOneCarryTerm : Prop :=
  ∀ (sd sa sb : SlotIx) (s : State), s.block.v = true → s.block.fitsWidth →
    ∃ t, exec (.adx sd sa sb) s = .next t ∧ s.answeredWith .ok t ∧
      (t.block.slots[sd]).getLsbD 0 = ((s.block.slots[sa]).getLsbD 0 ^^ (s.block.slots[sb]).getLsbD 0) ∧
      (∀ k : Nat, (t.block.slots[sd]).getLsbD (k + 1) =
        (decide (k + 1 < s.block.ws.bits) &&
          (((s.block.slots[sa]).getLsbD (k + 1) ^^ (s.block.slots[sb]).getLsbD (k + 1)) ^^
            ((s.block.slots[sa]).getLsbD k && (s.block.slots[sb]).getLsbD k)))) ∧
      s.block.sameSlotsBut [sd] t.block ∧ s.block.sameControl t.block

/-- XRL by `v < W`: bit `k` of the result is the exclusive-or of bits `(k + v) mod W` of the sources
(40_arx_primitives.md section 7). -/
def Obligations.XrlCommandRotatesTheXor : Prop :=
  ∀ (sd sa sb : SlotIx) (v : BitVec 6) (s : State), s.block.v = true → s.block.fitsWidth →
    v.toNat < s.block.ws.bits →
    ∃ t, exec (.xrl sd sa sb v) s = .next t ∧ s.answeredWith .ok t ∧
      (∀ k : Nat, (t.block.slots[sd]).getLsbD k =
        (decide (k < s.block.ws.bits) &&
          ((s.block.slots[sa]).getLsbD ((k + v.toNat) % s.block.ws.bits) ^^
            (s.block.slots[sb]).getLsbD ((k + v.toNat) % s.block.ws.bits)))) ∧
      s.block.sameSlotsBut [sd] t.block ∧ s.block.sameControl t.block

/-- 40_arx_primitives.md R109: ROR's two lines, its bits and its laws. -/
def Obligations.RotateRightBitsAndLaws : Prop :=
  ∀ (w : Width) (a : Word w) (m n : Nat), m < w.bits → n < w.bits →
    rorWord a 0 = a ∧
    (1 ≤ n → rorWord a n = a >>> n ||| a <<< (w.bits - n)) ∧
    (∀ k, k < w.bits → (rorWord a n).getLsbD k = a.getLsbD ((k + n) % w.bits)) ∧
    rorWord (rorWord a m) n = rorWord a ((m + n) % w.bits) ∧
    rorWord (0#w.bits) n = 0#w.bits ∧ rorWord (BitVec.allOnes w.bits) n = BitVec.allOnes w.bits

/-- When ADX is the sum: exactly when `a ^ b` and the carry term have no 1 bit in common below the top bit. R111's
remark leaves the top bit in; see the next statement and NOTES.md. -/
def Obligations.AdxIsTheSumWhenNoCarryTravels : Prop :=
  ∀ (w : Width) (a b : Word w),
    adxWord a b = a + b ↔ ∀ k, k + 1 < w.bits → ((a ^^^ b) &&& (a &&& b) <<< 1).getLsbD k = false

/-- The sentence of R111 as printed: ADX equals the sum exactly when `a ^ b` and the carry term have no 1 bit in the
same position. Expected to FAIL: a common 1 bit in the top position is lost in both. -/
def Obligations.AdxIsTheSumExactlyWhenNoCommonBit : Prop :=
  ∀ (w : Width) (a b : Word w), adxWord a b = a + b ↔ (a ^^^ b) &&& (a &&& b) <<< 1 = 0#w.bits

/-! ## G and F -/

/-- G on four different slots: the single-assignment form of 41_quarter_round_g.md section 2 with the printed rotation
amounts; the twelve other slots and the control state are unchanged. -/
def Obligations.GCommandComputesTheQuarterRound : Prop :=
  ∀ (ga gb gc gd : SlotIx) (s : State), s.block.v = true → [ga, gb, gc, gd].Nodup →
    ∃ t, exec (.g ga gb gc gd) s = .next t ∧ s.answeredWith .ok t ∧
      (∀ (r0 r1 r2 r3 : Nat) (a1 b1 c1 d1 a2 b2 c2 d2 : Word s.block.ws),
        (r0, r1, r2, r3) = (match s.block.ws with | .w32 => (8, 11, 16, 31) | .w64 => (8, 19, 40, 63)) →
        a1 = adxWord (source s ga) (source s gb) → d1 = xrlWord a1 (source s gd) r0 →
        c1 = adxWord (source s gc) d1 → b1 = xrlWord (source s gb) c1 r1 →
        a2 = adxWord a1 b1 → d2 = xrlWord a2 d1 r2 → c2 = adxWord c1 d2 → b2 = xrlWord b1 c2 r3 →
        t.block.slots[ga] = toContainer a2 ∧ t.block.slots[gb] = toContainer b2 ∧
          t.block.slots[gc] = toContainer c2 ∧ t.block.slots[gd] = toContainer d2) ∧
      s.block.sameSlotsBut [ga, gb, gc, gd] t.block ∧ s.block.sameControl t.block

/-- 41_quarter_round_g.md R122: G of four zeros is four zeros at both widths. -/
def Obligations.QuarterRoundKeepsZero : Prop :=
  ∀ w : Width, quarterRound (⟨0#w.bits, 0#w.bits, 0#w.bits, 0#w.bits⟩ : Quad w) = ⟨0#w.bits, 0#w.bits, 0#w.bits, 0#w.bits⟩

/-- 41_quarter_round_g.md R125: G leaves the same block as eight primitive commands. -/
def Obligations.GEqualsEightPrimitives : Prop :=
  ∀ (ga gb gc gd : SlotIx) (s : State) (r0 r1 r2 r3 : BitVec 6), s.block.v = true → [ga, gb, gc, gd].Nodup →
    (r0, r1, r2, r3) = (match s.block.ws with
      | .w32 => (8#6, 11#6, 16#6, 31#6)
      | .w64 => (8#6, 19#6, 40#6, 63#6)) →
    ∃ t u, exec (.g ga gb gc gd) s = .next t ∧
      execAll [(.adx ga ga gb, 0), (.xrl gd ga gd r0, 0), (.adx gc gc gd, 0), (.xrl gb gb gc r1, 0),
        (.adx ga ga gb, 0), (.xrl gd ga gd r2, 0), (.adx gc gc gd, 0), (.xrl gb gb gc r3, 0)] s = .next u ∧
      t.block = u.block

/-- F is a column step and then a diagonal step: each column, and each diagonal of the outcome of the columns, goes
through G, in the matrix form of 42_round_f.md section 1; the control state is unchanged and `R` plays no part. -/
def Obligations.FCommandIsColumnsThenDiagonals : Prop :=
  ∀ s : State, s.block.v = true →
    ∃ (t : State) (mid : Words s.block.ws), exec .f s = .next t ∧ s.answeredWith .ok t ∧
      (∀ j : Fin 4, (⟨mid[j.val], mid[4 + j.val], mid[8 + j.val], mid[12 + j.val]⟩ : Quad s.block.ws) =
        quarterRound ⟨source s (Fin.ofNat 16 j.val), source s (Fin.ofNat 16 (4 + j.val)),
          source s (Fin.ofNat 16 (8 + j.val)), source s (Fin.ofNat 16 (12 + j.val))⟩) ∧
      (∀ j : Fin 4,
        (∀ q : Quad s.block.ws,
          q = quarterRound ⟨mid[j.val], mid[4 + (j.val + 1) % 4], mid[8 + (j.val + 2) % 4],
            mid[12 + (j.val + 3) % 4]⟩ →
          t.block.slots[j.val] = toContainer q.a ∧ t.block.slots[4 + (j.val + 1) % 4] = toContainer q.b ∧
            t.block.slots[8 + (j.val + 2) % 4] = toContainer q.c ∧
            t.block.slots[12 + (j.val + 3) % 4] = toContainer q.d)) ∧
      s.block.sameControl t.block

/-- 42_round_f.md R134: F leaves the same block as eight G commands. -/
def Obligations.FEqualsEightQuarterRounds : Prop :=
  ∀ s : State, s.block.v = true →
    ∃ t u, exec .f s = .next t ∧
      execAll [(.g 0 4 8 12, 0), (.g 1 5 9 13, 0), (.g 2 6 10 14, 0), (.g 3 7 11 15, 0), (.g 0 5 10 15, 0),
        (.g 1 6 11 12, 0), (.g 2 7 8 13, 0), (.g 3 4 9 14, 0)] s = .next u ∧
      t.block = u.block

/-- 42_round_f.md R132: the order of the groups inside the column step and inside the diagonal step does not change
the result, the order of the two steps does; F of the all-zero words is all zero. F is a function of its words and the
width alone by its type. -/
def Obligations.GroupOrderWithinAStepIsFree : Prop :=
  (∀ (w : Width) (s : Words w) (cs ds : List Group), cs.Perm columns → ds.Perm diagonals →
    (cs ++ ds).foldl applyGroup s = roundWords s) ∧
  (∀ w : Width, ∃ s : Words w, (diagonals ++ columns).foldl applyGroup s ≠ roundWords s) ∧
  (∀ w : Width, roundWords (Vector.replicate 16 0#w.bits : Words w) = Vector.replicate 16 0#w.bits)

/-! ## The initializer -/

/-- 43_initializer.md section 1: the parameter word's four fields stand where the layout says and do not overlap. -/
def Obligations.ParameterWordFields : Prop :=
  ∀ (r d a : Nat) (w : Width), r ≤ 63 → d ≤ 255 → a ≤ 1023 →
    paramWord r d w.bits a = r * 2 ^ 26 + d * 2 ^ 18 + w.bits * 2 ^ 10 + a ∧
    paramWord r d w.bits a < 2 ^ 32 ∧ paramWord r d w.bits a / 2 ^ 26 = r ∧
    paramWord r d w.bits a / 2 ^ 18 % 2 ^ 8 = d ∧ paramWord r d w.bits a / 2 ^ 10 % 2 ^ 8 = w.bits ∧
    paramWord r d w.bits a % 2 ^ 10 = a

/-- The closed form of INJECT_w for every table of constants (43_initializer.md section 3). -/
def Obligations.InjectClosedForm : Prop :=
  ∀ (w : Width) (ic : InitConstants w) (r d a : Nat) (key : Vector (Word w) 4) (nonce : Vector (Word w) 2),
    r ≤ 63 → d ≤ 255 → a ≤ 1023 →
    injectWords ic r d a key nonce =
      #v[ic.c0, nonce[0], nonce[1], ic.c3, key[0], key[1], key[2], key[3], ic.c8, ic.c9, ic.c10, ic.c11, ic.c12,
        ic.c13, ic.c14 ^^^ BitVec.ofNat w.bits (r * 2 ^ 26 + d * 2 ^ 18 + w.bits * 2 ^ 10 + a), ic.c15]

/-- INJ with `R <= 63`: the State becomes INJECT_W of the slots' key and nonce, for the machine's constants; the nonce
and key slots and the control state are unchanged (43_initializer.md section 4). -/
def Obligations.InjCommandInjects : Prop :=
  ∀ (d : BitVec 8) (a : BitVec 10) (s : State), s.block.v = true → s.block.r.toNat ≤ 63 →
    ∃ t, exec (.inj d a) s = .next t ∧ s.answeredWith .ok t ∧
      readAll s.block.ws t.block.slots =
        injectWords (Config.ic s.block.ws) s.block.r.toNat d.toNat a.toNat
          #v[source s 4, source s 5, source s 6, source s 7] #v[source s 1, source s 2] ∧
      s.block.sameSlotsBut [0, 3, 8, 9, 10, 11, 12, 13, 14, 15] t.block ∧ s.block.sameControl t.block

/-- INJ twice in a row leaves the same block as INJ once (43_initializer.md section 4). -/
def Obligations.InjTwiceIsInjOnce : Prop :=
  ∀ (d : BitVec 8) (a : BitVec 10) (s : State), s.block.v = true → s.block.r.toNat ≤ 63 →
    ∃ t u, exec (.inj d a) s = .next t ∧ exec (.inj d a) t = .next u ∧ u.block = t.block

/-- INIT with `R <= 63`: the State becomes INIT_W of the slots' key and nonce, for the machine's constants; the
control state is unchanged (43_initializer.md section 4). -/
def Obligations.InitCommandInitializes : Prop :=
  ∀ (d : BitVec 8) (a : BitVec 10) (s : State), s.block.v = true → s.block.r.toNat ≤ 63 →
    ∃ t, exec (.init d a) s = .next t ∧ s.answeredWith .ok t ∧
      readAll s.block.ws t.block.slots =
        initWords (Config.ic s.block.ws) s.block.r.toNat d.toNat a.toNat
          #v[source s 4, source s 5, source s 6, source s 7] #v[source s 1, source s 2] ∧
      s.block.sameControl t.block

/-- INIT leaves the same block as INJ and then the command F issued `R` times (43_initializer.md section 4, the first
sentence of R153). -/
def Obligations.InitEqualsInjThenRounds : Prop :=
  ∀ (d : BitVec 8) (a : BitVec 10) (s : State), s.block.v = true → s.block.r.toNat ≤ 63 →
    ∃ t u, exec (.init d a) s = .next t ∧
      execAll ((.inj d a, 0) :: List.replicate s.block.r.toNat (.f, 0)) s = .next u ∧ t.block = u.block

/-- 43_initializer.md R152: the document's `initState` as NEW, six LDS in any order, and INIT, issued as command words;
with 64 rounds or more INIT faults and leaves the key and nonce loaded and nothing injected. The last clause, that the
assembler's INITSTATE is one such sequence, rests on 30_encoding.md R74 and, for the data-in 0 of NEW and INIT, on the
model's choice (log 14). -/
def Obligations.InitStateSequenceInitializes : Prop :=
  ∀ (w : Width) (r d a k0 k1 k2 k3 n0 n1 : Nat) (loads : List Issued) (rest : List HostEvent) (s : State),
    r ≤ 255 → d ≤ 255 → a ≤ 1023 → (∀ x ∈ [k0, k1, k2, k3, n0, n1], x < 2 ^ w.bits) →
    loads.Perm [(.lds 1, BitVec.ofNat 64 n0), (.lds 2, BitVec.ofNat 64 n1), (.lds 4, BitVec.ofNat 64 k0),
      (.lds 5, BitVec.ofNat 64 k1), (.lds 6, BitVec.ofNat 64 k2), (.lds 7, BitVec.ofNat 64 k3)] →
    s.pending = toEvent (.new w (BitVec.ofNat 8 r), 0) :: loads.map toEvent ++
      toEvent (.init (BitVec.ofNat 8 d) (BitVec.ofNat 10 a), 0) :: rest →
    (∃ t, runSteps 8 s = .next t ∧ t.pending = rest ∧ t.block.ws = w ∧ t.block.r.toNat = r ∧ t.block.v = true ∧
      (r ≤ 63 → t.block.err = s.block.err ∧ t.responses = s.responses ++ List.replicate 8 .ok ∧
        readAll w t.block.slots = initWords (Config.ic w) r d a
          #v[BitVec.ofNat w.bits k0, BitVec.ofNat w.bits k1, BitVec.ofNat w.bits k2, BitVec.ofNat w.bits k3]
          #v[BitVec.ofNat w.bits n0, BitVec.ofNat w.bits n1]) ∧
      (64 ≤ r → t.responses = s.responses ++ List.replicate 7 .ok ++ [.faulted .parameterRange] ∧
        t.block.slots = #v[0, BitVec.ofNat 64 n0, BitVec.ofNat 64 n1, 0, BitVec.ofNat 64 k0, BitVec.ofNat 64 k1,
          BitVec.ofNat 64 k2, BitVec.ofNat 64 k3, 0, 0, 0, 0, 0, 0, 0, 0])) ∧
    (r ≤ 63 → assemble (.initState w.bits r d a k0 k1 k2 k3 n0 n1) =
      some ([(.new w (BitVec.ofNat 8 r), 0), (.lds 1, BitVec.ofNat 64 n0), (.lds 2, BitVec.ofNat 64 n1),
        (.lds 4, BitVec.ofNat 64 k0), (.lds 5, BitVec.ofNat 64 k1), (.lds 6, BitVec.ofNat 64 k2),
        (.lds 7, BitVec.ofNat 64 k3), (.init (BitVec.ofNat 8 d) (BitVec.ofNat 10 a), 0)].map toEvent))

/-! ## The assembler -/

/-- 30_encoding.md R72 and R74, line by line: a line assembles to `events` exactly when the events' words decode to the
commands the line stands for, with the line's own operands as their fields and its value as LDS's data-in. The ranges
are those of the two tables: a slot is below 16, a number fits its field, and the conditions that no field expresses
are written out. An operand out of range matches nothing, so such a line assembles to nothing. That commands other
than LDS come with data-in 0, and that refusing a line is to assemble it to nothing, is the model's choice (log 14). -/
def Obligations.AssembledWordsDecodeBack : Prop :=
  ∀ (l : AsmLine) (events : List HostEvent),
    assemble l = some events ↔ ∃ commands, presents events commands ∧
      match l with
      | .new width r => ∃ (ws : Width) (r' : BitVec 8), ws.bits = width ∧ r'.toNat = r ∧ commands = [(.new ws r', 0)]
      | .lds sd value => ∃ (d : SlotIx) (x : BitVec 64), d.val = sd ∧ x.toNat = value ∧ commands = [(.lds d, x)]
      | .rds sa => ∃ a : SlotIx, a.val = sa ∧ commands = [(.rds a, 0)]
      | .rdst => commands = [(.rdst, 0)]
      | .xor sd sa sb => ∃ d a b : SlotIx, d.val = sd ∧ a.val = sa ∧ b.val = sb ∧ commands = [(.xor d a b, 0)]
      | .and sd sa sb => ∃ d a b : SlotIx, d.val = sd ∧ a.val = sa ∧ b.val = sb ∧ commands = [(.and d a b, 0)]
      | .shl sd sa n => ∃ (d a : SlotIx) (m : BitVec 6), d.val = sd ∧ a.val = sa ∧ m.toNat = n ∧
          commands = [(.shl d a m, 0)]
      | .ror sd sa n => ∃ (d a : SlotIx) (m : BitVec 6), d.val = sd ∧ a.val = sa ∧ m.toNat = n ∧
          commands = [(.ror d a m, 0)]
      | .adx sd sa sb => ∃ d a b : SlotIx, d.val = sd ∧ a.val = sa ∧ b.val = sb ∧ commands = [(.adx d a b, 0)]
      | .xrl sd sa sb v => ∃ (d a b : SlotIx) (m : BitVec 6), d.val = sd ∧ a.val = sa ∧ b.val = sb ∧ m.toNat = v ∧
          commands = [(.xrl d a b m, 0)]
      | .g ga gb gc gd => ∃ a b c d : SlotIx, a.val = ga ∧ b.val = gb ∧ c.val = gc ∧ d.val = gd ∧
          commands = [(.g a b c d, 0)]
      | .f => commands = [(.f, 0)]
      | .inj d a => ∃ (d' : BitVec 8) (a' : BitVec 10), d'.toNat = d ∧ a'.toNat = a ∧ commands = [(.inj d' a', 0)]
      | .init d a => ∃ (d' : BitVec 8) (a' : BitVec 10), d'.toNat = d ∧ a'.toNat = a ∧ commands = [(.init d' a', 0)]
      | .rol32 sd sa n => n ≤ 31 ∧ ∃ (d a : SlotIx) (m : BitVec 6), d.val = sd ∧ a.val = sa ∧
          m.toNat = (32 - n) % 32 ∧ commands = [(.ror d a m, 0)]
      | .rol64 sd sa n => n ≤ 63 ∧ ∃ (d a : SlotIx) (m : BitVec 6), d.val = sd ∧ a.val = sa ∧
          m.toNat = (64 - n) % 64 ∧ commands = [(.ror d a m, 0)]
      | .mov sd sa => ∃ d a : SlotIx, d.val = sd ∧ a.val = sa ∧ commands = [(.and d a a, 0)]
      | .initState width r d a k0 k1 k2 k3 n0 n1 => r ≤ 63 ∧ (∀ x ∈ [k0, k1, k2, k3, n0, n1], x < 2 ^ width) ∧
          ∃ (ws : Width) (r' d' : BitVec 8) (a' : BitVec 10) (x1 x2 x4 x5 x6 x7 : BitVec 64), ws.bits = width ∧
            r'.toNat = r ∧ d'.toNat = d ∧ a'.toNat = a ∧ x1.toNat = n0 ∧ x2.toNat = n1 ∧ x4.toNat = k0 ∧
            x5.toNat = k1 ∧ x6.toNat = k2 ∧ x7.toNat = k3 ∧
            commands = [(.new ws r', 0), (.lds 1, x1), (.lds 2, x2), (.lds 4, x4), (.lds 5, x5), (.lds 6, x6),
              (.lds 7, x7), (.init d' a', 0)]

/-- The pseudo-instructions MOV, ROL.32 and ROL.64 do what 30_encoding.md section 5 says: MOV copies a slot, and ROL
rotates left, bit `k` of the result being bit `(k + W - n) mod W` of the source. -/
def Obligations.PseudoInstructionsCopyAndRotateLeft : Prop :=
  ∀ (sd sa n : Nat) (s : State), sd < 16 → sa < 16 → s.block.v = true → s.block.fitsWidth →
    (∃ t, execAll (expand (.mov sd sa)) s = .next t ∧
      t.block.slots[slotOf sd] = s.block.slots[slotOf sa] ∧ s.block.sameSlotsBut [slotOf sd] t.block) ∧
    (n < s.block.ws.bits →
      ∃ t, execAll (expand (match s.block.ws with | .w32 => .rol32 sd sa n | .w64 => .rol64 sd sa n)) s = .next t ∧
        (∀ k, k < s.block.ws.bits → (t.block.slots[slotOf sd]).getLsbD k =
          (s.block.slots[slotOf sa]).getLsbD ((k + s.block.ws.bits - n) % s.block.ws.bits)) ∧
        s.block.sameSlotsBut [slotOf sd] t.block)
end

