-- ==== Sys2Proof/Laws/Decode.lean ====
section
/-! SUPPORT. Placing fields in a command word, masking them, and the decoder's two outcomes. -/

namespace Sys2Proof

/-- A placed field vanishes under a mask that the field's whole place vanishes under. -/
theorem place_masked {k : Nat} (x : BitVec k) (lo : Nat) (m : BitVec 32)
    (h : place (BitVec.allOnes k) lo &&& m = 0#32) : place x lo &&& m = 0#32 := by
  apply BitVec.eq_of_getLsbD_eq
  intro j hj
  have hbit := congrArg (fun y : BitVec 32 => y.getLsbD j) h
  simp only [place, BitVec.getLsbD_and, BitVec.getLsbD_shiftLeft, BitVec.getLsbD_setWidth,
    BitVec.getLsbD_allOnes, BitVec.getLsbD_zero] at hbit ⊢
  by_cases hk : j - lo < k
  · simp only [hk, decide_true, Bool.and_true] at hbit
    cases hx : x.getLsbD (j - lo)
    · simp
    · simpa using hbit
  · simp [BitVec.getLsbD_of_ge x (j - lo) (by omega)]

theorem placeSlot_masked (i : SlotIx) (lo : Nat) (m : BitVec 32)
    (h : place (BitVec.allOnes 4) lo &&& m = 0#32) : placeSlot i lo &&& m = 0#32 :=
  place_masked _ lo m h

/-- Formats R, X, Q: the slots vanish under a mask clear at their places. -/
theorem threeSlots_masked (op : BitVec 6) (x y z : SlotIx) {m : BitVec 32}
    (h : m &&& 0x03FFC000#32 = 0#32) : threeSlots op x y z &&& m = place op 26 &&& m := by
  have clear : ∀ lo, place (BitVec.allOnes 4) lo &&& 0x03FFC000#32 = place (BitVec.allOnes 4) lo →
      place (BitVec.allOnes 4) lo &&& m = 0#32 := by
    intro lo e
    rw [← e, BitVec.and_assoc, BitVec.and_comm 0x03FFC000#32 m, h, BitVec.and_zero]
  simp only [threeSlots, BitVec.and_or_distrib_right, placeSlot_masked _ 22 m (clear 22 (by decide)),
    placeSlot_masked _ 18 m (clear 18 (by decide)), placeSlot_masked _ 14 m (clear 14 (by decide)), BitVec.or_zero]

/-- Format I: the slots and the amount vanish under its mask. -/
theorem formatI_masked (op : BitVec 6) (sd sa : SlotIx) (n : BitVec 6) :
    formatI op sd sa n &&& 0xFC03FFC0#32 = place op 26 &&& 0xFC03FFC0#32 := by
  simp only [formatI, BitVec.and_or_distrib_right, placeSlot_masked _ 22 0xFC03FFC0#32 (by decide),
    placeSlot_masked _ 18 0xFC03FFC0#32 (by decide), place_masked n 0 0xFC03FFC0#32 (by decide), BitVec.or_zero]

/-- Format P: the parallelism and the tag size vanish under its mask. -/
theorem formatP_masked (op : BitVec 6) (d : BitVec 8) (a : BitVec 10) :
    formatP op d a &&& 0xFC03FC00#32 = place op 26 &&& 0xFC03FC00#32 := by
  simp only [formatP, BitVec.and_or_distrib_right, place_masked d 18 0xFC03FC00#32 (by decide),
    place_masked a 0 0xFC03FC00#32 (by decide), BitVec.or_zero]

/-- A word whose opcode has a row and whose reserved bits are zero decodes to the row's command. -/
theorem decode_of_row {cw : BitVec 32} {row : OpcodeRow}
    (h : opcodeTable.find? (fun r => r.op == opcodeField cw) = some row) (hm : cw &&& row.mask = row.mtch) :
    decode cw = .ok (row.build cw) := by simp [decode, h, hm]

/-- What a legal word is: its opcode's row matches it and built the command. -/
theorem decode_eq_ok {cw : BitVec 32} {i : Instr} (h : decode cw = .ok i) :
    ∃ row ∈ opcodeTable, row.op = opcodeField cw ∧ cw &&& row.mask = row.mtch ∧ row.build cw = i := by
  unfold decode at h
  split at h
  · cases h
  · next row hr =>
    split at h
    · next hm =>
      exact ⟨row, List.mem_of_find?_eq_some hr, by simpa using List.find?_some hr, hm, by simpa using h⟩
    · cases h

end Sys2Proof
end

