-- ==== Sys2Proof/Laws/State.lean ====
section
/-! SUPPORT. The small lemmas of the state's named updates: one per field. -/

namespace Sys2Proof.Machine

variable (s : State) (st : BitVec 3) (dout : BitVec 64) (cw : BitVec 32) (din : BitVec 64)

@[simp] theorem State.respond_block : (s.respond st dout).block = s.block := rfl
@[simp] theorem State.respond_pending : (s.respond st dout).pending = s.pending := rfl
@[simp] theorem State.respond_din : (s.respond st dout).din = s.din := rfl
@[simp] theorem State.respond_responses : (s.respond st dout).responses = s.responses ++ [⟨st, dout⟩] := rfl
@[simp] theorem State.respond_resets : (s.respond st dout).resets = s.resets := rfl

@[simp] theorem State.present_block : (s.present cw din).block = s.block := rfl
@[simp] theorem State.present_pending : (s.present cw din).pending = .command cw din :: s.pending := rfl
@[simp] theorem State.present_din : (s.present cw din).din = s.din := rfl
@[simp] theorem State.present_responses : (s.present cw din).responses = s.responses := rfl
@[simp] theorem State.present_resets : (s.present cw din).resets = s.resets := rfl

@[simp] theorem applyReset_ws : (applyReset s).block.ws = .w32 := rfl
@[simp] theorem applyReset_r : (applyReset s).block.r = 0#8 := rfl
@[simp] theorem applyReset_v : (applyReset s).block.v = false := rfl
@[simp] theorem applyReset_err : (applyReset s).block.err = none := rfl
@[simp] theorem applyReset_pending : (applyReset s).pending = s.pending := rfl
@[simp] theorem applyReset_din : (applyReset s).din = s.din := rfl
@[simp] theorem applyReset_responses : (applyReset s).responses = s.responses := rfl
@[simp] theorem applyReset_resets : (applyReset s).resets = s.resets + 1 := rfl

theorem accept_nil {s : State} (h : s.pending = []) : s.accept = .idle := by simp [State.accept, h]

theorem accept_reset {s : State} {rest : List HostEvent} (h : s.pending = .reset :: rest) :
    s.accept = .reset { s with pending := rest } := by simp [State.accept, h]

theorem accept_command {s : State} {cw : BitVec 32} {din : BitVec 64} {rest : List HostEvent}
    (h : s.pending = .command cw din :: rest) :
    s.accept = .command cw { s with pending := rest, din := din } := by simp [State.accept, h]

end Sys2Proof.Machine
end

