-- ==== Sys2Proof/Laws/Ops.lean ====
section
/-! SUPPORT. What each shared operation does, said once. -/

namespace Sys2Proof.Machine

variable {w : Width}

/-! ### Answers -/

/-- Everything a completed command can be: the given block, one response `(0, dout)`, and nothing else changed. -/
theorem complete_eq_next {s t : State} {b : Block} {dout : BitVec 64} (h : complete s b dout = .next t) :
    t = ({ s with block := b }.respond 0#3 dout) := by
  simpa [complete] using h.symm

/-- Everything taking a fault can be: the sticky `ERR`, one response `(code, 0)`, and nothing else changed. -/
theorem raiseFault_eq_next {s t : State} {c : FaultCode} (h : raiseFault c s = .next t) :
    t = ({ s with block := { s.block with err := stickyErr s.block.err c } }.respond c.code 0#64) := by
  simpa [raiseFault] using h.symm

@[simp] theorem needState_of_valid {s : State} {body : Answer} (h : s.block.v = true) : needState s body = body := by
  simp [needState, h]

@[simp] theorem needState_of_invalid {s : State} {body : Answer} (h : s.block.v = false) :
    needState s body = raiseFault .noState s := by
  simp [needState, h]

@[simp] theorem refuseIf_true {s : State} {c : FaultCode} {body : Answer} :
    refuseIf true c s body = raiseFault c s := rfl

@[simp] theorem refuseIf_false {s : State} {c : FaultCode} {body : Answer} : refuseIf false c s body = body := rfl

@[simp] theorem stickyErr_none (c : FaultCode) : stickyErr none c = some c := rfl

@[simp] theorem stickyErr_some (first c : FaultCode) : stickyErr (some first) c = some first := rfl

theorem code_ne_zero (c : FaultCode) : c.code ≠ 0#3 := by cases c <;> decide

theorem code_ne_seven (c : FaultCode) : c.code ≠ 7#3 := by cases c <;> decide

theorem code_injective {c d : FaultCode} (h : c.code = d.code) : c = d := by
  revert h; cases c <;> cases d <;> decide

/-! ### Words and containers -/

theorem bits_le_container (w : Width) : w.bits ≤ 64 := by cases w <;> decide

theorem bits_pos (w : Width) : 0 < w.bits := by cases w <;> decide

/-- A word survives its container. -/
@[simp] theorem toWord_toContainer (x : Word w) : toWord w (toContainer x) = x := by
  unfold toWord toContainer
  rw [BitVec.setWidth_setWidth_of_le x (bits_le_container w), BitVec.setWidth_eq]

/-- A word's container holds the same number. -/
@[simp] theorem toNat_toContainer (x : Word w) : (toContainer x).toNat = x.toNat := by
  unfold toContainer
  exact BitVec.toNat_setWidth_of_le (bits_le_container w)

/-- What a slot is given fits the width. -/
theorem toContainer_fits (x : Word w) : (toContainer x).toNat < 2 ^ w.bits := by
  rw [toNat_toContainer]; exact x.isLt

/-- A container's word is its low `W` bits. -/
@[simp] theorem toNat_toWord (c : Container) : (toWord w c).toNat = c.toNat % 2 ^ w.bits := by
  simp [toWord]

/-- A container that fits the width is the container of its word. -/
theorem toContainer_toWord {c : Container} (h : c.toNat < 2 ^ w.bits) : toContainer (toWord w c) = c := by
  apply BitVec.eq_of_toNat_eq
  rw [toNat_toContainer, toNat_toWord, Nat.mod_eq_of_lt h]

/-- A word's bits are its container's. -/
theorem getLsbD_toContainer (x : Word w) (k : Nat) : (toContainer x).getLsbD k = x.getLsbD k := by
  by_cases hk : k < 64
  · simp [toContainer, hk]
  · have := bits_le_container w
    rw [BitVec.getLsbD_of_ge _ _ (by omega), BitVec.getLsbD_of_ge _ _ (by omega)]

/-- A container that fits has its word's bits. -/
theorem getLsbD_toWord {c : Container} (h : c.toNat < 2 ^ w.bits) (k : Nat) :
    (toWord w c).getLsbD k = c.getLsbD k := by
  rw [← getLsbD_toContainer, toContainer_toWord h]

/-! ### Slots -/

/-- Every slot after a write, in simp's normal form of an index. -/
@[simp] theorem getElem_writeSlot (S : Slots) (i : SlotIx) (x : Word w) (k : Nat) (hk : k < 16) :
    (writeSlot S i x)[k] = if i.val = k then toContainer x else S[k] := by
  simp [writeSlot, Vector.getElem_set]

theorem getElem_writeSlot_self (S : Slots) (i : SlotIx) (x : Word w) :
    (writeSlot S i x)[i] = toContainer x := by simp

theorem getElem_writeSlot_ne (S : Slots) {i j : SlotIx} (x : Word w) (h : j ≠ i) :
    (writeSlot S i x)[j] = S[j] := by
  have : i.val ≠ j.val := fun e => h (Fin.ext e.symm)
  simp [this]

/-- Reading back what was written. -/
@[simp] theorem readSlot_writeSlot_self (S : Slots) (i : SlotIx) (x : Word w) :
    readSlot w (writeSlot S i x) i = x := by
  rw [readSlot, getElem_writeSlot_self, toWord_toContainer]

/-- A write leaves every other slot alone. -/
theorem readSlot_writeSlot_ne (S : Slots) {i j : SlotIx} (x : Word w) (h : j ≠ i) :
    readSlot w (writeSlot S i x) j = readSlot w S j := by
  rw [readSlot, getElem_writeSlot_ne S x h, readSlot]

/-- Two slot arrays with the same sixteen entries are the same. -/
theorem slots_ext {α : Type} {S T : Vector α 16} (h : ∀ i : SlotIx, S[i] = T[i]) : S = T :=
  Vector.ext fun k hk => h ⟨k, hk⟩

@[simp] theorem getElem_mapSixteen {α β : Type} (f : α → β) (s : Vector α 16) (k : Nat) (hk : k < 16) :
    (mapSixteen f s)[k] = f s[k] := by
  simp [mapSixteen]

@[simp] theorem getElem_readAll (S : Slots) (k : Nat) (hk : k < 16) : (readAll w S)[k] = toWord w S[k] := by
  simp [readAll]

@[simp] theorem getElem_writeAll (s : Words w) (k : Nat) (hk : k < 16) : (writeAll s)[k] = toContainer s[k] := by
  simp [writeAll]

@[simp] theorem readAll_writeAll (s : Words w) : readAll w (writeAll s) = s :=
  Vector.ext fun k hk => by rw [getElem_readAll, getElem_writeAll, toWord_toContainer]

/-- Every container of the slots fits the width. -/
abbrev SlotsFit (w : Width) (S : Slots) : Prop := ∀ i : SlotIx, (S[i]).toNat < 2 ^ w.bits

theorem SlotsFit.write {S : Slots} (h : SlotsFit w S) (i : SlotIx) (x : Word w) : SlotsFit w (writeSlot S i x) := by
  intro j
  by_cases e : j = i
  · subst e; rw [getElem_writeSlot_self]; exact toContainer_fits x
  · rw [getElem_writeSlot_ne S x e]; exact h j

theorem SlotsFit.writeAll (s : Words w) : SlotsFit w (writeAll s) := by
  intro j; simpa using toContainer_fits s[j]

theorem SlotsFit.zero : SlotsFit w (Vector.replicate 16 0#64) := by
  intro j; simp

/-! ### Operand checks -/

theorem slotsCoincide_eq_false {ga gb gc gd : SlotIx} :
    slotsCoincide ga gb gc gd = false ↔ [ga, gb, gc, gd].Nodup := by
  simp [slotsCoincide]; tauto

theorem amountTooBig_eq_true {n : BitVec 6} : amountTooBig w n = true ↔ w.bits ≤ n.toNat := by
  simp [amountTooBig]

theorem tooWide_eq_true {din : BitVec 64} : tooWide w din = true ↔ 2 ^ w.bits ≤ din.toNat := by
  simp [tooWide]

theorem roundsTooMany_eq_true {r : BitVec 8} : roundsTooMany r = true ↔ 64 ≤ r.toNat := by
  simp [roundsTooMany]

end Sys2Proof.Machine
end

