-- ==== Sys2Proof/Laws/Exec.lean ====
section
/-! SUPPORT. What a command and a step can do, said once: the inversion lemmas later proofs cite. -/

namespace Sys2Proof.Machine

/-- What the answer of a command with operand slots can be: a fault other than IllegalCommand, or, given a State, a
completion that changes slots only. -/
def SlotsOnly (s : State) (a : Answer) : Prop :=
  (∃ c, c ≠ .illegalCommand ∧ a = raiseFault c s) ∨
  (s.block.v = true ∧ ∃ S dout, a = complete s { s.block with slots := S } dout)

theorem SlotsOnly.fault {s : State} {c : FaultCode} (h : c ≠ .illegalCommand) : SlotsOnly s (raiseFault c s) :=
  .inl ⟨c, h, rfl⟩

theorem SlotsOnly.completed {s : State} (h : s.block.v = true) (S : Slots) (dout : BitVec 64) :
    SlotsOnly s (complete s { s.block with slots := S } dout) := .inr ⟨h, S, dout, rfl⟩

theorem SlotsOnly.needState {s : State} {body : Answer} (h : s.block.v = true → SlotsOnly s body) :
    SlotsOnly s (needState s body) := by
  cases hv : s.block.v
  · rw [needState_of_invalid hv]; exact .fault (by decide)
  · rw [needState_of_valid hv]; exact h hv

theorem SlotsOnly.refuseIf {s : State} {bad : Bool} {c : FaultCode} {body : Answer} (hc : c ≠ .illegalCommand)
    (h : SlotsOnly s body) : SlotsOnly s (refuseIf bad c s body) := by
  cases bad
  · exact h
  · exact .fault hc

/-- Every command either is NEW, which creates its State, or is RDST, which answers the status word, or changes slots
only. -/
theorem exec_cases (i : Instr) (s : State) :
    (∃ ws r, i = .new ws r ∧ exec i s =
      complete s { slots := Vector.replicate 16 0#64, ws := ws, r := r, v := true, err := s.block.err } 0#64) ∨
    (i = .rdst ∧ exec i s = complete s s.block (stat s.block)) ∨
    SlotsOnly s (exec i s) := by
  cases i with
  | new ws r => exact .inl ⟨ws, r, rfl, rfl⟩
  | rdst => exact .inr (.inl ⟨rfl, rfl⟩)
  | lds sd => exact .inr (.inr (.needState fun hv => .refuseIf (by decide) (.completed hv _ _)))
  | rds sa => exact .inr (.inr (.needState fun hv => .completed hv s.block.slots _))
  | xor sd sa sb => exact .inr (.inr (.needState fun hv => .completed hv _ _))
  | and sd sa sb => exact .inr (.inr (.needState fun hv => .completed hv _ _))
  | shl sd sa n => exact .inr (.inr (.needState fun hv => .refuseIf (by decide) (.completed hv _ _)))
  | ror sd sa n => exact .inr (.inr (.needState fun hv => .refuseIf (by decide) (.completed hv _ _)))
  | adx sd sa sb => exact .inr (.inr (.needState fun hv => .completed hv _ _))
  | xrl sd sa sb v => exact .inr (.inr (.needState fun hv => .refuseIf (by decide) (.completed hv _ _)))
  | g ga gb gc gd => exact .inr (.inr (.needState fun hv => .refuseIf (by decide) (.completed hv _ _)))
  | f => exact .inr (.inr (.needState fun hv => .completed hv _ _))
  | inj d a => exact .inr (.inr (.needState fun hv => .refuseIf (by decide) (.completed hv _ _)))
  | init d a => exact .inr (.inr (.needState fun hv => .refuseIf (by decide) (.completed hv _ _)))

/-- A step with nothing pending. -/
theorem step_idle {s : State} (h : s.pending = []) : step s = .next s := by simp [step, accept_nil h]

/-- A step with a reset pending. -/
theorem step_reset {s : State} {rest : List HostEvent} (h : s.pending = .reset :: rest) :
    step s = .next (applyReset { s with pending := rest }) := by simp [step, accept_reset h]

/-- A step with a legal command pending. -/
theorem step_legal {s : State} {cw : BitVec 32} {din : BitVec 64} {rest : List HostEvent} {i : Instr}
    (h : s.pending = .command cw din :: rest) (hd : decode cw = .ok i) :
    step s = exec i { s with pending := rest, din := din } := by simp [step, accept_command h, hd]

/-- A step with an illegal command pending. -/
theorem step_illegal {s : State} {cw : BitVec 32} {din : BitVec 64} {rest : List HostEvent} {e : Illegal}
    (h : s.pending = .command cw din :: rest) (hd : decode cw = .error e) :
    step s = raiseFault .illegalCommand { s with pending := rest, din := din } := by
  simp [step, accept_command h, hd]

/-- What a step can be: idle, a reset, a legal command executed, or an illegal word refused. -/
theorem step_cases (s : State) :
    (s.pending = [] ∧ step s = .next s) ∨
    (∃ rest, s.pending = .reset :: rest ∧ step s = .next (applyReset { s with pending := rest })) ∨
    (∃ cw din rest, s.pending = .command cw din :: rest ∧
      ((∃ i, decode cw = .ok i ∧ step s = exec i { s with pending := rest, din := din }) ∨
        (∃ e, decode cw = .error e ∧
          step s = raiseFault .illegalCommand { s with pending := rest, din := din }))) := by
  match h : s.pending with
  | [] => exact .inl ⟨rfl, step_idle h⟩
  | .reset :: rest => exact .inr (.inl ⟨rest, rfl, step_reset h⟩)
  | .command cw din :: rest =>
    refine .inr (.inr ⟨cw, din, rest, rfl, ?_⟩)
    match hd : decode cw with
    | .ok i => exact .inl ⟨i, rfl, step_legal h hd⟩
    | .error e => exact .inr ⟨e, rfl, step_illegal h hd⟩

/-- What writing one result does: the destination holds the result, every other slot and the control state are as
before, and the command is answered with `(0, 0)`. -/
theorem writeResult_spec (s : State) (sd : SlotIx) (x : Word s.block.ws) :
    ∃ t, writeResult sd x s = .next t ∧ s.answeredWith .ok t ∧ t.block.slots[sd] = toContainer x ∧
      s.block.sameSlotsBut [sd] t.block ∧ s.block.sameControl t.block :=
  ⟨_, rfl, ⟨rfl, rfl, rfl, rfl⟩, getElem_writeSlot_self _ _ _,
    fun _ hj => getElem_writeSlot_ne _ _ (by simpa using hj), ⟨rfl, rfl, rfl, rfl⟩⟩

/-- Every command gives a next state, faulting or not. -/
theorem exec_answers_next (i : Instr) (s : State) : ∃ t, exec i s = .next t := by
  rcases exec_cases i s with ⟨_, _, _, e⟩ | ⟨_, e⟩ | ⟨_, _, e⟩ | ⟨_, _, _, e⟩ <;> exact ⟨_, e⟩

/-- A sequence of commands after its first one. -/
theorem execAll_cons {i : Instr} {din : BitVec 64} {rest : List (Instr × BitVec 64)} {s t : State}
    (h : exec i { s with din := din } = .next t) : execAll ((i, din) :: rest) s = execAll rest t := by
  rw [execAll, h]

/-- A sequence of commands after its first part. -/
theorem execAll_append {first rest : List (Instr × BitVec 64)} {s t : State} (h : execAll first s = .next t) :
    execAll (first ++ rest) s = execAll rest t := by
  induction first generalizing s with
  | nil => simp_all [execAll]
  | cons c first ih =>
    obtain ⟨u, hu⟩ := exec_answers_next c.1 { s with din := c.2 }
    rw [execAll_cons hu] at h
    rw [List.cons_append, execAll_cons hu, ih h]

/-- The host's runner, after a step with a next state. -/
theorem run_of_next (M : Host.Core) {n : Nat} {s t : M.State} (h : M.step s = .next t) :
    M.run (n + 1) s = M.run n t := by
  rw [Host.Core.run, h]

/-- The host's runner, at a refused step. -/
theorem run_of_refused (M : Host.Core) {n : Nat} {s : M.State} {r : M.Refusal} (h : M.step s = .refused r) :
    M.run (n + 1) s = .refused r := by
  rw [Host.Core.run, h]

/-- The machine's own runner is the host's. -/
theorem runSteps_eq_run (n : Nat) (s : State) : runSteps n s = Sys2Proof.core.run n s := by
  induction n generalizing s with
  | zero => rfl
  | succ n ih =>
    cases h : step s with
    | next t =>
      have own : runSteps (n + 1) s = runSteps n t := by simp [runSteps, h]
      exact own.trans ((ih t).trans (run_of_next Sys2Proof.core h).symm)
    | fault r => exact r.rec
    | refused r =>
      have own : runSteps (n + 1) s = .refused r := by simp [runSteps, h]
      exact own.trans (run_of_refused Sys2Proof.core h).symm

end Sys2Proof.Machine
end

