-- ==== Sys2Proof/Laws/PerInstr.lean ====
section
/-! SUPPORT. Laws made per command: the word a command encodes to matches the command's own row of the opcode map as
30_encoding.md R66 prints it, so that every reserved bit is zero. -/

namespace Sys2Proof.Laws.MatchesRow

open Sys2Proof Sys2Proof.Machine

/-- The command's word, under its row's mask, is its row's match. -/
def Statement (i : Instr) : Prop := encode i &&& (printedRow i).2 = (printedRow i).1

theorem new (ws : Width) (r : BitVec 8) : Statement (.new ws r) := by
  have hw : place (wsBit ws) 8 &&& 0xFFFFFE00#32 = 0#32 := by cases ws <;> decide
  have hr : place r 0 &&& 0xFFFFFE00#32 = 0#32 := place_masked r 0 _ (by decide)
  show (place 0x01#6 26 ||| place (wsBit ws) 8 ||| place r 0) &&& 0xFFFFFE00#32 = 0x04000000#32
  rw [BitVec.and_or_distrib_right, BitVec.and_or_distrib_right, hw, hr]
  decide

theorem lds (sd : SlotIx) : Statement (.lds sd) := by
  have hs : placeSlot sd 22 &&& 0xFC3FFFFF#32 = 0#32 := placeSlot_masked sd 22 _ (by decide)
  show (place 0x02#6 26 ||| placeSlot sd 22) &&& 0xFC3FFFFF#32 = 0x08000000#32
  rw [BitVec.and_or_distrib_right, hs]
  decide

theorem rds (sa : SlotIx) : Statement (.rds sa) := by
  have hs : placeSlot sa 18 &&& 0xFFC3FFFF#32 = 0#32 := placeSlot_masked sa 18 _ (by decide)
  show (place 0x03#6 26 ||| placeSlot sa 18) &&& 0xFFC3FFFF#32 = 0x0C000000#32
  rw [BitVec.and_or_distrib_right, hs]
  decide

theorem rdst : Statement .rdst := show place 0x04#6 26 &&& 0xFFFFFFFF#32 = 0x10000000#32 by decide

theorem xor (sd sa sb : SlotIx) : Statement (.xor sd sa sb) :=
  (threeSlots_masked 0x08 sd sa sb (m := 0xFC003FFF#32) (by decide)).trans
    (show _ = 0x20000000#32 by decide)

theorem and (sd sa sb : SlotIx) : Statement (.and sd sa sb) :=
  (threeSlots_masked 0x09 sd sa sb (m := 0xFC003FFF#32) (by decide)).trans
    (show _ = 0x24000000#32 by decide)

theorem shl (sd sa : SlotIx) (n : BitVec 6) : Statement (.shl sd sa n) :=
  (formatI_masked 0x0A sd sa n).trans (show _ = 0x28000000#32 by decide)

theorem ror (sd sa : SlotIx) (n : BitVec 6) : Statement (.ror sd sa n) :=
  (formatI_masked 0x0B sd sa n).trans (show _ = 0x2C000000#32 by decide)

theorem adx (sd sa sb : SlotIx) : Statement (.adx sd sa sb) :=
  (threeSlots_masked 0x0C sd sa sb (m := 0xFC003FFF#32) (by decide)).trans
    (show _ = 0x30000000#32 by decide)

theorem xrl (sd sa sb : SlotIx) (v : BitVec 6) : Statement (.xrl sd sa sb v) := by
  have hv : place v 0 &&& 0xFC003FC0#32 = 0#32 := place_masked v 0 _ (by decide)
  show (threeSlots 0x0D sd sa sb ||| place v 0) &&& 0xFC003FC0#32 = 0x34000000#32
  rw [BitVec.and_or_distrib_right, threeSlots_masked 0x0D sd sa sb (by decide), hv]
  decide

theorem g (ga gb gc gd : SlotIx) : Statement (.g ga gb gc gd) := by
  have hd : placeSlot gd 10 &&& 0xFC0003FF#32 = 0#32 := placeSlot_masked gd 10 _ (by decide)
  show (threeSlots 0x10 ga gb gc ||| placeSlot gd 10) &&& 0xFC0003FF#32 = 0x40000000#32
  rw [BitVec.and_or_distrib_right, threeSlots_masked 0x10 ga gb gc (by decide), hd]
  decide

theorem f : Statement .f := show place 0x11#6 26 &&& 0xFFFFFFFF#32 = 0x44000000#32 by decide

theorem inj (d : BitVec 8) (a : BitVec 10) : Statement (.inj d a) :=
  (formatP_masked 0x12 d a).trans (show _ = 0x48000000#32 by decide)

theorem init (d : BitVec 8) (a : BitVec 10) : Statement (.init d a) :=
  (formatP_masked 0x13 d a).trans (show _ = 0x4C000000#32 by decide)

end Sys2Proof.Laws.MatchesRow
end

