-- ==== Sys2Proof/Laws/QuarterRound.lean ====
section
/-! SUPPORT. What writing four slots does, and G on slots against G on words. -/

namespace Sys2Proof.Machine

variable {w : Width}

/-- Four different slots written: each holds its own word, and every other slot is as before. -/
theorem getElem_writeQuad (S : Slots) {ga gb gc gd : SlotIx} (q : Quad w) (h : [ga, gb, gc, gd].Nodup) :
    (writeQuad S ga gb gc gd q)[ga] = toContainer q.a ∧ (writeQuad S ga gb gc gd q)[gb] = toContainer q.b ∧
      (writeQuad S ga gb gc gd q)[gc] = toContainer q.c ∧ (writeQuad S ga gb gc gd q)[gd] = toContainer q.d ∧
      ∀ j, j ∉ [ga, gb, gc, gd] → (writeQuad S ga gb gc gd q)[j] = S[j] := by
  have hne : ga ≠ gb ∧ ga ≠ gc ∧ ga ≠ gd ∧ gb ≠ gc ∧ gb ≠ gd ∧ gc ≠ gd := by simp at h; tauto
  obtain ⟨ab, ac, ad, bc, bd, cd⟩ := hne
  refine ⟨?_, ?_, ?_, ?_, ?_⟩ <;> simp only [writeQuad]
  · rw [getElem_writeSlot_ne _ _ ad, getElem_writeSlot_ne _ _ ac, getElem_writeSlot_ne _ _ ab, getElem_writeSlot_self]
  · rw [getElem_writeSlot_ne _ _ bd, getElem_writeSlot_ne _ _ bc, getElem_writeSlot_self]
  · rw [getElem_writeSlot_ne _ _ cd, getElem_writeSlot_self]
  · rw [getElem_writeSlot_self]
  · intro j hj
    simp only [List.mem_cons, List.not_mem_nil, or_false, not_or] at hj
    rw [getElem_writeSlot_ne _ _ hj.2.2.2, getElem_writeSlot_ne _ _ hj.2.2.1, getElem_writeSlot_ne _ _ hj.2.1,
      getElem_writeSlot_ne _ _ hj.1]

/-- G accepted: four different slots of an existing State. -/
theorem execG_accepted {ga gb gc gd : SlotIx} {s : State} (hv : s.block.v = true) (hn : [ga, gb, gc, gd].Nodup) :
    exec (.g ga gb gc gd) s = complete s { s.block with
      slots := writeQuad s.block.slots ga gb gc gd
        (quarterRound (readQuad s.block.ws s.block.slots ga gb gc gd)) } 0#64 := by
  simp only [exec, execG, needState_of_valid hv, slotsCoincide_eq_false.2 hn, refuseIf_false]

/-- G on the slots of a group is the group's application on their words. -/
theorem readAll_writeQuad (S : Slots) (k : Group) :
    readAll w (writeQuad S k.a k.b k.c k.d (quarterRound (readQuad w S k.a k.b k.c k.d))) =
      applyGroup (readAll w S) k := by
  apply Vector.ext
  intro i hi
  simp only [writeQuad, applyGroup, getElem_readAll, getElem_writeSlot, Vector.getElem_set, Fin.getElem_fin, readQuad,
    readSlot]
  split
  · simp
  · split
    · simp
    · split
      · simp
      · split <;> simp

end Sys2Proof.Machine
end

