-- ==== Sys2Proof/Tests/Slice0.lean ====
section
/-! SUPPORT. Tests against the spec's own vectors (95_test_vectors.md, 96_vector_supplement.md), the smoke test of the
assembly check, and a witness for the hypotheses of each statement. -/

namespace Sys2Proof.Tests

open Sys2Proof Sys2Proof.Machine

/-! ## Small states and readers -/

/-- A block with a State of width `w`, round count `r`, the listed slots and zeros elsewhere. -/
def live (w : Width) (r : BitVec 8) (l : List (SlotIx × Container)) : State :=
  { State.reset with
    block := { slots := l.foldl (fun S e => S.set e.1 e.2) (Vector.replicate 16 0#64), ws := w, r := r, v := true,
               err := none } }

/-- One step on the word `cw` with the data-in value `din`. -/
def stepOn (s : State) (cw : BitVec 32) (din : BitVec 64 := 0) : Answer := step (s.present cw din)

def slotAfter (a : Answer) (i : SlotIx) : Option Container :=
  match a with
  | .next t => some t.block.slots[i]
  | .fault _ => none
  | .refused _ => none

def slotsAfter (a : Answer) : List Container :=
  match a with
  | .next t => t.block.slots.toArray.toList
  | .fault _ => []
  | .refused _ => []

def answerOf (a : Answer) : Option Response :=
  match a with
  | .next t => t.responses.getLast?
  | .fault _ => none
  | .refused _ => none

def errAfter (a : Answer) : Option (Option FaultCode) :=
  match a with
  | .next t => some t.block.err
  | .fault _ => none
  | .refused _ => none

/-- The document's operands `x` and `y` in slots 0 and 1, and the 64-bit pair `p`, `k` (95 section 2.1, 2.2). -/
def xy : State := live .w32 0 [(0, 0x12345678), (1, 0x23456789)]
def pk : State := live .w64 0 [(0, 0x0123456789ABCDEF), (1, 0x0011223344556677)]

/-! ## Decoding and encoding -/

/-- E1 and 30_encoding.md section 6: at least one written word of every command. -/
theorem test_decode_written_words :
    [0x040001FF, 0x0BC00000, 0x0C380000, 0x10000000, 0x21404000, 0x25804000, 0x29C0003F, 0x2CC0000D, 0x30884000,
      0x3500400B, 0x40D27800, 0x44000000, 0x48040100, 0x4FFC03FF].map decode =
    [.ok (.new .w64 255), .ok (.lds 15), .ok (.rds 14), .ok .rdst, .ok (.xor 5 0 1), .ok (.and 6 0 1),
      .ok (.shl 7 0 63), .ok (.ror 3 0 13), .ok (.adx 2 2 1), .ok (.xrl 4 0 1 11), .ok (.g 3 4 9 14), .ok .f,
      .ok (.inj 1 256), .ok (.init 255 1023)] := by decide

/-- The same words assembled from the commands. -/
theorem test_encode_written_words :
    [Instr.new .w64 255, .lds 15, .rds 14, .rdst, .xor 5 0 1, .and 6 0 1, .shl 7 0 63, .ror 3 0 13, .adx 2 2 1,
      .xrl 4 0 1 11, .g 3 4 9 14, .f, .inj 1 256, .init 255 1023].map encode =
    [0x040001FF, 0x0BC00000, 0x0C380000, 0x10000000, 0x21404000, 0x25804000, 0x29C0003F, 0x2CC0000D, 0x30884000,
      0x3500400B, 0x40D27800, 0x44000000, 0x48040100, 0x4FFC03FF] := by decide

/-- E2, opcodes not assigned. -/
theorem test_decode_unassigned :
    [0x00000000, 0xFFFFFFFF, 0x14000000, 0x1C000000, 0x38000000, 0x3C000000, 0x50000000].map decode =
      List.replicate 7 (.error .unassignedOpcode) := by decide

/-- E2, reserved bits set. -/
theorem test_decode_reserved :
    [0x04000200, 0x04040004, 0x08000001, 0x08200000, 0x0C400000, 0x10000001, 0x20000400, 0x2000000D, 0x28004004,
      0x2CC0004D, 0x30804001, 0x35004040, 0x40123001, 0x44000001, 0x48040404, 0x4C040404, 0x4C020004].map decode =
      List.replicate 17 (.error .reservedBit) := by decide

theorem test_decodeTableWord : decodeTableWord 32 0x405AF000 = some (.g 1 6 11 12) ∧
    decodeTableWord 32 0x44000001 = none := by decide

/-! ## The smoke test of the assembly check (30_encoding.md R72, R74) -/

theorem smoke_slot_out_of_range : (AsmLine.rds 16).wellFormed = false := by decide
theorem smoke_width_unknown : (AsmLine.new 16 0).wellFormed = false := by decide
theorem smoke_rounds_out_of_range : (AsmLine.new 32 256).wellFormed = false := by decide
theorem smoke_value_out_of_range : (AsmLine.lds 0 (2 ^ 64)).wellFormed = false := by decide
theorem smoke_amount_out_of_range : (AsmLine.ror 0 0 64).wellFormed = false := by decide
theorem smoke_parallelism_out_of_range : (AsmLine.inj 256 0).wellFormed = false := by decide
theorem smoke_tag_out_of_range : (AsmLine.init 0 1024).wellFormed = false := by decide
theorem smoke_rol32_out_of_range : (AsmLine.rol32 0 0 32).wellFormed = false := by decide
theorem smoke_init_state_rounds : (AsmLine.initState 32 64 1 4 0 0 0 0 0 0).wellFormed = false := by decide
theorem smoke_init_state_key_too_wide : (AsmLine.initState 32 4 1 4 (2 ^ 32) 0 0 0 0 0).wellFormed = false := by decide
theorem smoke_well_formed : (AsmLine.xrl 15 15 15 63).wellFormed = true := by decide

/-- P1 lines 11 and 12: MOV and ROL.32 assemble to the words listed there. -/
theorem test_assemble_pseudo :
    assemble (.mov 9 0) = some [.command 0x26400000 0] ∧
    assemble (.rol32 10 0 4) = some [.command 0x2E80001C 0] ∧ assemble (.rds 16) = none := by decide

/-- P3 lines 1 to 8: INITSTATE assembles to the words and data-in values listed there. -/
theorem test_assemble_init_state :
    assemble (.initState 32 4 1 4 0x00112233 0x44556677 0x8899AABB 0xCCDDEEFF 0xFFFFFFFF 0xFFFFFFFF) =
      some [.command 0x04000004 0, .command 0x08400000 0xFFFFFFFF, .command 0x08800000 0xFFFFFFFF,
        .command 0x09000000 0x00112233, .command 0x09400000 0x44556677, .command 0x09800000 0x8899AABB,
        .command 0x09C00000 0xCCDDEEFF, .command 0x4C040004 0] := by decide

/-! ## One step of each command -/

/-- E25 with the corner case of R163: `STAT` is 0x3FF after `NEW 64, 255`. -/
theorem test_new : (match stepOn State.reset 0x040001FF with
    | .next t => some (stat t.block)
    | _ => none) = some 0x3FF := by decide

/-- NEW on a 64-bit State to make a 32-bit one leaves no trace of the old words (R146). -/
theorem test_new_discards : slotAfter (stepOn pk 0x04000004) 0 = some 0 := by decide

/-- E8: the smallest value that does not fit is refused. -/
theorem test_lds_too_wide : answerOf (stepOn (live .w32 0 []) 0x08000000 0x100000000) = some ⟨3, 0⟩ := by decide

/-- E10: every value fits at width 64. -/
theorem test_lds : slotAfter (stepOn (live .w64 0 []) 0x08000000 0xFFFFFFFFFFFFFFFF) 0 = some 0xFFFFFFFFFFFFFFFF := by
  decide

/-- 44_host_access.md R162's example. -/
theorem test_rds : answerOf (stepOn xy 0x0C000000) = some ⟨0, 0x12345678⟩ := by decide

/-- E4: reading before any NEW. -/
theorem test_rds_no_state : answerOf (stepOn State.reset 0x0C000000) = some ⟨2, 0⟩ := by decide

/-- P6 line 4: R = 64, V = 1, ERR = 2. -/
theorem test_rdst : answerOf (stepOn { live .w32 64 [] with
    block := { (live .w32 64 []).block with err := some .noState } } 0x10000000) = some ⟨0, 0xA40⟩ := by decide

theorem test_xor : slotAfter (stepOn xy 0x21404000) 5 = some 0x317131F1 := by decide          -- V1
theorem test_xor_64 : slotAfter (stepOn pk 0x20804000) 2 = some 0x01326754CDFEAB98 := by decide -- V53
theorem test_and : slotAfter (stepOn xy 0x25804000) 6 = some 0x02044608 := by decide          -- V2
theorem test_and_64 : slotAfter (stepOn pk 0x24804000) 2 = some 0x0001002300014467 := by decide -- V54
theorem test_shl : slotAfter (stepOn xy 0x2880000D) 2 = some 0x8ACF0000 := by decide          -- V22
theorem test_shl_64_by_32 : slotAfter (stepOn pk 0x28800020) 2 = some 0x89ABCDEF00000000 := by decide -- V67
theorem test_ror : slotAfter (stepOn xy 0x2CC0000D) 3 = some 0xB3C091A2 := by decide          -- V31
theorem test_ror_zero : slotAfter (stepOn xy 0x2C800000) 2 = some 0x12345678 := by decide     -- V28
theorem test_adx : slotAfter (stepOn xy 0x30804000) 2 = some 0x3579BDE1 := by decide          -- V3, S1
theorem test_adx_64 : slotAfter (stepOn pk 0x30804000) 2 = some 0x01306712CDFC2356 := by decide -- V55
theorem test_xrl : slotAfter (stepOn xy 0x3500400B) 4 = some 0x3E262E26 := by decide          -- V44, S3
theorem test_xrl_64 : slotAfter (stepOn pk 0x3480403F) 2 = some 0x0264CEA99BFD5730 := by decide -- V83

/-- E11, and E6: NoState comes before BadAmount. -/
theorem test_amount_refused : answerOf (stepOn xy 0x2C400020) = some ⟨4, 0⟩ ∧
    answerOf (stepOn State.reset 0x2C000028) = some ⟨2, 0⟩ := by decide

/-- G3, in slots 0 to 3. -/
theorem test_g_32 : (slotsAfter (stepOn (live .w32 0 [(0, 0x00112233), (1, 0x44556677), (2, 0x8899AABB),
    (3, 0xCCDDEEFF)]) 0x40048C00)).take 4 = [0x82260AC6, 0x77D13217, 0xF52893AF, 0xB1285FAE] := by decide

/-- G11, in slots 0 to 3. -/
theorem test_g_64 : (slotsAfter (stepOn (live .w64 0 [(0, 0x0011223344556677), (1, 0x8899AABBCCDDEEFF),
    (2, 0x0123456789ABCDEF), (3, 0xFEDCBA9876543210)]) 0x40048C00)).take 4 =
    [0x025F0ADF024E0ACE, 0x0FE159D26BC33DD2, 0x9C45F31837CD5881, 0xA974387CB874297C] := by decide

/-- The state `s[i] = i` of F2 and F5. -/
def counting (w : Width) : State := live w 0 ((List.range 16).map fun i => (Fin.ofNat 16 i, BitVec.ofNat 64 i))

/-- F2. -/
theorem test_f_32 : slotsAfter (stepOn (counting .w32) 0x44000000) =
    [0x59191001, 0x49B78ABC, 0xABBC3C0B, 0xF7052EA4, 0xEEE61AD7, 0xB53A2D4C, 0xF5EF0B45, 0x8E5D0048, 0x1616A71E,
      0x11EEF6FB, 0xD00F59AF, 0x37C15601, 0x0E4AD52B, 0xBE183B86, 0xA51862D5, 0x9DD8C06F] := by decide

/-- F5. -/
theorem test_f_64 : slotsAfter (stepOn (counting .w64) 0x44000000) =
    [0x1173B5EEAC5E7899, 0x3ED23713E07C1F5C, 0x5C33D84724520313, 0x73925D3A686074D4, 0xAE176AEC39425812,
      0xC742C593F798CB67, 0x349F9C71B1869FF4, 0xBADA11AA6B5C3482, 0x5F5E509215D61A43, 0x349868EC7CF159C9,
      0xA0D250E75B841C32, 0xB89C788B38A353B9, 0x9300780B5EA24E37, 0xC724501211CC09D8, 0xB9C8686AD6E6425D,
      0x6D6C50639B8805B5] := by decide

/-- The document's own vector S4, as a function value. -/
theorem test_round_single_bit :
    (roundWords (w := .w32) #v[1, 0, 0, 0, 0, 0, 0, 0, 0, 0, 0, 0, 0, 0, 0, 0]).toArray.toList =
    [0x04004001, 0x20200400, 0x20042020, 0x4A4A8A08, 0x01880885, 0x8A424A40, 0x4A024A02, 0xC24A0248, 0x41212104,
      0x888C4C4A, 0x41210520, 0x05212101, 0x05012000, 0x20202004, 0x884A4A08, 0x40210500] := by decide

/-- I1: parameter words. -/
theorem test_param_word : [paramWord 4 1 32 4, paramWord 63 255 64 1023, paramWord 2 1 64 256, paramWord 63 0 32 0] =
    [0x10048004, 0xFFFD03FF, 0x08050100, 0xFC008000] := by decide

/-- The candidate table `IC_PI` of 43_initializer.md R142 (general knowledge, not the document's; log 15). -/
def icPi32 : InitConstants .w32 :=
  ⟨0x243F6A88, 0x85A308D3, 0x13198A2E, 0x03707344, 0x254F537A, 0x38531D48, 0x839C6E83, 0xF97A3AE5, 0x8C91D88C,
    0x11EAFB59⟩

/-- I2, under `IC_PI`. -/
theorem test_inject_words :
    (injectWords icPi32 4 1 4 #v[0x00112233, 0x44556677, 0x8899AABB, 0xCCDDEEFF] #v[0xFFFFFFFF, 0xFFFFFFFF]).toArray.toList =
    [0x243F6A88, 0xFFFFFFFF, 0xFFFFFFFF, 0x85A308D3, 0x00112233, 0x44556677, 0x8899AABB, 0xCCDDEEFF, 0x13198A2E,
      0x03707344, 0x254F537A, 0x38531D48, 0x839C6E83, 0xF97A3AE5, 0x9C955888, 0x11EAFB59] := by decide

/-- I3.4, under `IC_PI`: four rounds. -/
theorem test_init_words :
    (initWords icPi32 4 1 4 #v[0x00112233, 0x44556677, 0x8899AABB, 0xCCDDEEFF] #v[0xFFFFFFFF, 0xFFFFFFFF]).toArray.toList =
    [0x402F09CD, 0x7E77A878, 0x515F380A, 0x66D75A9F, 0x1BB683BE, 0xF3B2D979, 0xEDDF93A2, 0x78F10A55, 0xC9B8CDEC,
      0x2CB2CA57, 0xAAB45598, 0x4A699BB0, 0xFD6E35E3, 0xA74B3126, 0x99E7CADB, 0xA1661A82] := by decide

/-- I7 and E20: INJ keeps the key slots for every table; 64 rounds are refused. -/
theorem test_inj : slotAfter (stepOn (live .w32 63 [(4, 0x00112233)]) 0x48040004) 4 = some 0x00112233 ∧
    answerOf (stepOn (live .w32 64 []) 0x48040004) = some ⟨6, 0⟩ := by decide

/-- I4 and E19: with no rounds INIT keeps the nonce slots too; 64 rounds are refused. -/
theorem test_init : slotAfter (stepOn (live .w32 0 [(1, 0xFFFFFFFF)]) 0x4C040004) 1 = some 0xFFFFFFFF ∧
    answerOf (stepOn (live .w32 64 []) 0x4C040004) = some ⟨6, 0⟩ := by decide

/-- E16. -/
theorem test_g_refused : answerOf (stepOn (live .w32 0 []) 0x40008C00) = some ⟨5, 0⟩ := by decide

/-- E3 and P6 lines 11 and 16: an illegal word, and `ERR` keeps the first fault. -/
theorem test_illegal_sticky : errAfter (stepOn State.reset 0) = some (some .illegalCommand) ∧
    errAfter (stepOn { xy with block := { xy.block with err := some .noState } } 0x44000001) =
      some (some .noState) := by decide

/-- R200: a reset event clears V and ERR. -/
theorem test_reset_event : (match step { xy with pending := [.reset] } with
    | .next t => some (t.block.v, t.block.err, t.block.ws)
    | _ => none) = some (false, none, .w32) := by rfl

/-! ## Witnesses: concrete states that meet the hypotheses of each statement -/

/-- A State of width 32 and 4 rounds with words in it, and the same with a word that does not fit pending at the
port. -/
def w32s : State := live .w32 4 [(0, 0xFFFFFFFF), (1, 1), (4, 7)]
def w64s : State := live .w64 63 [(0, 0xFFFFFFFFFFFFFFFF), (15, 1)]
def atPort (s : State) (din : BitVec 64) : State := { s with din := din }

theorem witness_ResetEventPutsControlToReset : ({ w32s with pending := [.reset, .reset] } : State).pending =
    .reset :: [.reset] := rfl

theorem witness_ResetValuesAndUnobservableSlots : State.reset.block.v = false ∧
    State.reset.block.slots ≠ w32s.block.slots := by decide

theorem witness_StepKeepsWordsWithinWidth : (w32s.present 0x28800001 0).block.fitsWidth ∧
    (w32s.present 0x28800001 0).block.v = true ∧ ∃ t, step (w32s.present 0x28800001 0) = .next t :=
  ⟨by decide, rfl, _, rfl⟩

theorem witness_StepKeepsResponsesLegal : (∀ r ∈ ({ w32s with responses := [⟨6, 0⟩, ⟨0, 5⟩] } : State).responses,
    r.st ≠ 7#3 ∧ (r.st ≠ 0#3 → r.dout = 0#64)) ∧
    ∃ t, step ({ w32s with responses := [⟨6, 0⟩, ⟨0, 5⟩], pending := [.command 0 0] } : State) = .next t :=
  ⟨by decide, _, rfl⟩

theorem witness_EncodeOfDecodeIsTheWord : decode 0x37FFC03F#32 = .ok (.xrl 15 15 15 63) := by decide

theorem witness_WordIsLegalExactlyWhenOneRowMatches : (∃ row ∈ printedRows, 0x4FFC03FF#32 &&& row.2 = row.1) ∧
    (∀ row ∈ printedRows, 0x4FFC07FF#32 &&& row.2 ≠ row.1) := by simp [printedRows]

theorem witness_IllegalWordIsRefusedInEveryState :
    (State.reset.present 0xFFFFFFFF 9).pending = .command 0xFFFFFFFF 9 :: [] ∧
    ∀ row ∈ printedRows, 0xFFFFFFFF#32 &&& row.2 ≠ row.1 := ⟨rfl, by simp [printedRows]⟩

theorem witness_StepExecutesTheDecodedCommand : (w32s.present 0x44000000 5).pending = .command 0x44000000 5 :: [] ∧
    decode 0x44000000#32 = .ok .f ∧ w32s.pending = [] := by decide

theorem witness_EveryStepAnswersEachCommandOnce :
    (w32s.present 0x0C000000 0).pending = .command 0x0C000000 0 :: [] ∧
    ∃ t, step (w32s.present 0x0C000000 0) = .next t := ⟨by decide, _, rfl⟩

theorem witness_ControlIsWrittenOnlyByNewAndReset : (∃ t, step (w32s.present 0x040001FF 0) = .next t) ∧
    (∃ t, step { w32s with pending := [.reset] } = .next t) ∧ ∃ t, step (w32s.present 0x44000000 0) = .next t :=
  ⟨⟨_, rfl⟩, ⟨_, rfl⟩, _, rfl⟩

/-- A State whose `ERR` is set, with two commands pending. -/
def marked : State := { w32s with block := { w32s.block with err := some .badAmount },
                                  pending := [.command 0x00000000 0, .command 0x0C000000 0] }

theorem witness_OnlyResetClearsErrAndValid : marked.noResetPending ∧ marked.block.err = some .badAmount ∧
    marked.block.v = true ∧ ∃ t, runSteps 2 marked = .next t := ⟨by decide, rfl, rfl, _, rfl⟩

theorem witness_FaultChangesOnlyErr :
    (∃ t, step (w32s.present 0x40008C00 0) = .next t ∧ t.responses = w32s.responses ++ [⟨5#3, 0⟩]) ∧
    (∃ t, step (w32s.present 0x44000000 0) = .next t ∧ t.responses = w32s.responses ++ [⟨0#3, 0⟩]) ∧
    (∃ t, step ({ marked with pending := [.command 0 0] } : State) = .next t ∧
      t.responses = marked.responses ++ [⟨1#3, 0⟩]) :=
  ⟨⟨_, rfl, rfl⟩, ⟨_, rfl, rfl⟩, _, rfl, rfl⟩

theorem witness_FaultsExactlyWhereTheRulesSay :
    (∃ t, exec (.rds 0) State.reset = .next t ∧ t.responses = State.reset.responses ++ [⟨FaultCode.noState.code, 0⟩]) ∧
    (∃ t, exec (.lds 0) (atPort w32s (2 ^ 32)) = .next t ∧
      t.responses = (atPort w32s (2 ^ 32)).responses ++ [⟨FaultCode.widthMismatch.code, 0⟩]) ∧
    (∃ t, exec (.ror 1 0 32) w32s = .next t ∧ t.responses = w32s.responses ++ [⟨FaultCode.badAmount.code, 0⟩]) ∧
    (∃ t, exec (.g 0 1 2 0) w32s = .next t ∧ t.responses = w32s.responses ++ [⟨FaultCode.badOperand.code, 0⟩]) ∧
    (∃ t, exec (.init 1 4) (live .w64 64 []) = .next t ∧
      t.responses = (live .w64 64 []).responses ++ [⟨FaultCode.parameterRange.code, 0⟩]) :=
  ⟨⟨_, rfl, rfl⟩, ⟨_, rfl, rfl⟩, ⟨_, rfl, rfl⟩, ⟨_, rfl, rfl⟩, _, rfl, rfl⟩

theorem witness_NoStateRefusesAllButNewAndRdst : State.reset.block.v = false ∧
    (Instr.f ≠ .rdst ∧ ∀ ws r, Instr.f ≠ .new ws r) ∧ (Instr.rdst = .rdst ∨ ∃ ws r, Instr.rdst = .new ws r) ∧
    (∃ ws r, Instr.new .w64 255 = .new ws r) :=
  ⟨rfl, ⟨by decide, fun _ _ h => by cases h⟩, .inl rfl, _, _, rfl⟩

theorem witness_LdsRefusesAValueThatDoesNotFit : w32s.block.v = true ∧ w32s.block.ws = .w32 ∧
    (atPort w32s 0x100000000).din.extractLsb' 32 32 ≠ 0#32 := by decide

theorem witness_AmountIsRefusedExactlyWhenAtLeastTheWidth : w32s.block.v = true ∧
    w32s.block.ws.bits ≤ (32#6).toNat ∧ (31#6).toNat < w32s.block.ws.bits ∧ (63#6).toNat < w64s.block.ws.bits := by
  decide

theorem witness_GRefusesCoincidingSlots : w32s.block.v = true ∧ ¬ ([0, 1, 2, 0] : List SlotIx).Nodup := by decide

theorem witness_InjAndInitRefuseTooManyRounds : (live .w32 64 []).block.v = true ∧
    64 ≤ (live .w32 64 []).block.r.toNat := by decide

/-- An executed command and a fault pending, from `ERR = 0`. -/
def fresh : State := { w32s with pending := [.command 0x44000000 0, .command 0x00000000 0] }

theorem witness_ErrIsZeroExactlyWhenEveryResponseIsOk : fresh.noResetPending ∧ fresh.block.err = none ∧
    (∃ t, runSteps 1 fresh = .next t ∧ t.block.err = none) ∧ ∃ t, runSteps 2 fresh = .next t ∧ t.block.err ≠ none :=
  ⟨by decide, rfl, ⟨_, rfl, rfl⟩, _, rfl, by decide⟩

theorem witness_ErrDoesNotAffectExecution : ∃ t, exec (.adx 2 0 1) w32s = .next t := ⟨_, rfl⟩

theorem witness_CommandsChangeOnlyTheSlotsTheyWrite : (∃ t, exec (.g 0 4 8 12) w32s = .next t) ∧
    ∃ t, exec (.ror 1 0 32) w32s = .next t := ⟨⟨_, rfl⟩, _, rfl⟩

theorem witness_CommandsDependOnlyOnTheSlotsTheyRead :
    (∀ j ∈ slotsRead (.xor 2 0 1), (w32s.block.slots.set 4 9)[j] = w32s.block.slots[j]) ∧
    (w32s.block.slots.set 4 9) ≠ w32s.block.slots ∧
    ∃ t, exec (.xor 2 0 1) w32s = .next t ∧ t.responses.getLast?.map Response.st = some 0#3 :=
  ⟨by decide, by decide, _, rfl, rfl⟩

theorem witness_LdsWritesTheDataInValue : (atPort w32s 0xFFFFFFFF).block.v = true ∧
    (atPort w32s 0xFFFFFFFF).din.toNat < 2 ^ (atPort w32s 0xFFFFFFFF).block.ws.bits ∧
    (atPort w64s 0xFFFFFFFFFFFFFFFF).din.toNat < 2 ^ (atPort w64s 0).block.ws.bits := by decide

theorem witness_RdsAnswersTheSlot : w32s.block.v = true ∧ w32s.block.fitsWidth := by decide

/-- Between the write and the reads of slot 1: a rotate into slot 1 that faults, and a write to another slot. -/
def between : List Issued := [(.ror 1 0 32, 0), (.xor 3 0 1, 0)]

theorem leavesSlot_between (s : State) (h : s.block.v = true ∧ s.block.ws = .w32) : leavesSlot 1 between s := by
  have refused : exec (.ror 1 0 32) { s with din := 0 } = raiseFault .badAmount { s with din := 0 } := by
    show needState _ (refuseIf (amountTooBig s.block.ws 32) _ _ _) = _
    have big : amountTooBig s.block.ws 32 = true := by rw [h.2]; rfl
    rw [needState_of_valid (s := { s with din := 0 }) h.1, big, refuseIf_true]
  intro t ht
  rw [refused] at ht
  refine ⟨.inr ?_, fun _ _ => ⟨.inl (by decide), trivial⟩⟩
  rw [raiseFault_eq_next ht]
  simp [State.respond, FaultCode.code]

/-- For each clause, with that sequence between: an XOR that writes slot 1, an LDS of the largest value, and NEW. -/
theorem witness_ReadsReturnTheLastWrite :
    (∃ t, exec (.xor 1 0 4) { w32s with din := 0 } = .next t ∧ t.block.v = true ∧ leavesSlot 1 between t) ∧
    (w32s.block.v = true ∧ (0xFFFFFFFF#64).toNat < 2 ^ w32s.block.ws.bits ∧
      ∀ t, exec (.lds 1) { w32s with din := 0xFFFFFFFF } = .next t → leavesSlot 1 between t) ∧
    ∀ t, exec (.new .w32 4) { State.reset with din := 0 } = .next t → leavesSlot 1 between t := by
  refine ⟨⟨_, rfl, rfl, leavesSlot_between _ ⟨rfl, rfl⟩⟩, ⟨rfl, by decide, fun t h => ?_⟩, fun t h => ?_⟩ <;>
    exact leavesSlot_between t (by cases h; exact ⟨rfl, rfl⟩)

theorem witness_XorCommandWritesTheBitwiseXor : w32s.block.v = true ∧ w32s.block.fitsWidth := by decide
theorem witness_AndCommandWritesTheBitwiseAnd : w64s.block.v = true ∧ w64s.block.fitsWidth := by decide
theorem witness_AdxCommandAddsOneCarryTerm : w32s.block.v = true ∧ w32s.block.fitsWidth := by decide

theorem witness_ShlCommandMultipliesByAPowerOfTwo : w32s.block.v = true ∧ w32s.block.fitsWidth ∧
    (31#6).toNat < w32s.block.ws.bits := by decide

theorem witness_RorCommandRotatesRight : w32s.block.v = true ∧ w32s.block.fitsWidth ∧
    (0#6).toNat < w32s.block.ws.bits := by decide

theorem witness_XrlCommandRotatesTheXor : w64s.block.v = true ∧ w64s.block.fitsWidth ∧
    (63#6).toNat < w64s.block.ws.bits := by decide

theorem witness_RotateRightBitsAndLaws : 31 < Width.w32.bits ∧ 1 ≤ 31 ∧ 63 < Width.w64.bits := by decide

theorem witness_GCommandComputesTheQuarterRound : w64s.block.v = true ∧ ([3, 4, 9, 14] : List SlotIx).Nodup ∧
    ((8, 19, 40, 63) : Nat × Nat × Nat × Nat) =
      (match w64s.block.ws with | .w32 => (8, 11, 16, 31) | .w64 => (8, 19, 40, 63)) := by decide

theorem witness_GEqualsEightPrimitives : w32s.block.v = true ∧ ([0, 1, 2, 3] : List SlotIx).Nodup ∧
    ((8#6, 11#6, 16#6, 31#6) : BitVec 6 × BitVec 6 × BitVec 6 × BitVec 6) =
      (match w32s.block.ws with | .w32 => (8#6, 11#6, 16#6, 31#6) | .w64 => (8#6, 19#6, 40#6, 63#6)) := by decide

theorem witness_FCommandIsColumnsThenDiagonals : w32s.block.v = true := rfl
theorem witness_FEqualsEightQuarterRounds : w64s.block.v = true := rfl

theorem witness_GroupOrderWithinAStepIsFree : columns.reverse.Perm columns ∧ diagonals.reverse.Perm diagonals :=
  ⟨List.reverse_perm _, List.reverse_perm _⟩

theorem witness_ParameterWordFields : 63 ≤ 63 ∧ 255 ≤ 255 ∧ 1023 ≤ 1023 := by decide
theorem witness_InjectClosedForm : 63 ≤ 63 ∧ 255 ≤ 255 ∧ 1023 ≤ 1023 := by decide

theorem witness_InjCommandInjects : w64s.block.v = true ∧ w64s.block.r.toNat ≤ 63 := by decide
theorem witness_InjTwiceIsInjOnce : w32s.block.v = true ∧ w32s.block.r.toNat ≤ 63 := by decide
theorem witness_InitCommandInitializes : w64s.block.v = true ∧ w64s.block.r.toNat ≤ 63 := by decide
theorem witness_InitEqualsInjThenRounds : w32s.block.v = true ∧ w32s.block.r.toNat ≤ 63 := by decide

/-- Six loads in another order than the spec prints them. -/
def someLoads : List Issued :=
  [(.lds 7, 4), (.lds 1, 5), (.lds 2, 6), (.lds 4, 1), (.lds 5, 2), (.lds 6, 0xFFFFFFFF)]

def initSequence (r : BitVec 8) : State :=
  { State.reset with
    pending := toEvent (.new .w32 r, 0) :: someLoads.map toEvent ++ toEvent (.init 255 1023, 0) :: [.reset] }

theorem witness_InitStateSequenceInitializes :
    (∀ x ∈ [1, 2, 0xFFFFFFFF, 4, 5, 6], x < 2 ^ Width.w32.bits) ∧
    someLoads.Perm [(.lds 1, BitVec.ofNat 64 5), (.lds 2, BitVec.ofNat 64 6), (.lds 4, BitVec.ofNat 64 1),
      (.lds 5, BitVec.ofNat 64 2), (.lds 6, BitVec.ofNat 64 0xFFFFFFFF), (.lds 7, BitVec.ofNat 64 4)] ∧
    (initSequence (BitVec.ofNat 8 63)).pending = toEvent (.new .w32 (BitVec.ofNat 8 63), 0) :: someLoads.map toEvent ++
      toEvent (.init (BitVec.ofNat 8 255) (BitVec.ofNat 10 1023), 0) :: [.reset] ∧
    (initSequence (BitVec.ofNat 8 64)).pending = toEvent (.new .w32 (BitVec.ofNat 8 64), 0) :: someLoads.map toEvent ++
      toEvent (.init (BitVec.ofNat 8 255) (BitVec.ofNat 10 1023), 0) :: [.reset] := by
  refine ⟨by decide, ?_, rfl, rfl⟩
  decide

/-- R72 and R74 at the ends of their ranges: the words and data-in values, and none beyond. -/
theorem witness_AssembledWordsDecodeBack :
    assemble (.init 255 1023) = some [.command 0x4FFC03FF 0] ∧ assemble (.init 256 1023) = none ∧
    assemble (.lds 15 (2 ^ 64 - 1)) = some [.command 0x0BC00000 0xFFFFFFFFFFFFFFFF] ∧
    assemble (.rol32 3 0 19) = some [.command 0x2CC0000D 0] ∧ assemble (.rol32 3 0 32) = none ∧
    assemble (.initState 64 64 1 4 0 0 0 0 0 0) = none := by decide

theorem witness_PseudoInstructionsCopyAndRotateLeft : 15 < 16 ∧ w32s.block.v = true ∧ w32s.block.fitsWidth ∧
    31 < w32s.block.ws.bits ∧ w64s.block.v = true ∧ w64s.block.fitsWidth ∧ 63 < w64s.block.ws.bits := by decide

end Sys2Proof.Tests
end

/-! PROOFS. The slots of a block without a State are unobservable (10_state.md R34). Two runs that differ only in such
slots are related by `State.Indistinguishable`; every step keeps the relation. -/

namespace Sys2Proof.Machine

/-- `s` with its slots replaced. -/
def State.withSlots (s : State) (S : Slots) : State := { s with block := { s.block with slots := S } }

/-- The two states are equal, or no State exists in them and they differ in the slots only. -/
def State.Indistinguishable (s u : State) : Prop := s = u ∨ (s.block.v = false ∧ ∃ S, u = s.withSlots S)

/-- Both answers are next states, and these are indistinguishable. -/
def SameAnswer (a b : Answer) : Prop := ∃ t u, a = .next t ∧ b = .next u ∧ t.Indistinguishable u

/-! ### One command -/

/-- While `V = 0` every command but NEW and RDST is refused with NoState (60_exceptions.md R172). -/
theorem exec_without_state {i : Instr} {s : State} (hv : s.block.v = false) (hnew : ∀ ws r, i ≠ .new ws r)
    (hrdst : i ≠ .rdst) : exec i s = raiseFault .noState s := by
  cases i with
  | new ws r => exact absurd rfl (hnew ws r)
  | rdst => exact absurd rfl hrdst
  | _ => exact needState_of_invalid hv

/-- Taking a fault reads no slot. -/
theorem raiseFault_withSlots {s : State} (c : FaultCode) (S : Slots) (hv : s.block.v = false) :
    SameAnswer (raiseFault c s) (raiseFault c (s.withSlots S)) :=
  ⟨_, _, rfl, rfl, .inr ⟨hv, S, rfl⟩⟩

/-- No command tells the slots of a block without a State: NEW overwrites them, `STAT` does not show them, and every
other command is refused. -/
theorem exec_withSlots {s : State} (i : Instr) (S : Slots) (hv : s.block.v = false) :
    SameAnswer (exec i s) (exec i (s.withSlots S)) := by
  by_cases hnew : ∃ ws r, i = .new ws r
  · obtain ⟨ws, r, rfl⟩ := hnew
    exact ⟨_, _, rfl, rfl, .inl rfl⟩
  by_cases hrdst : i = .rdst
  · subst hrdst
    exact ⟨_, _, rfl, rfl, .inr ⟨hv, S, rfl⟩⟩
  have hother : ∀ ws r, i ≠ .new ws r := fun ws r e => hnew ⟨ws, r, e⟩
  have hvS : (s.withSlots S).block.v = false := hv
  rw [exec_without_state hv hother hrdst, exec_without_state hvS hother hrdst]
  exact raiseFault_withSlots .noState S hv

/-! ### One step and a run -/

/-- Every step gives a next state. -/
theorem step_answers_next (s : State) : ∃ t, step s = .next t := by
  rcases step_cases s with ⟨_, e⟩ | ⟨_, _, e⟩ | ⟨_, _, _, _, ⟨i, _, e⟩ | ⟨_, _, e⟩⟩
  · exact ⟨_, e⟩
  · exact ⟨_, e⟩
  · rw [e]; exact exec_answers_next i _
  · exact ⟨_, e⟩

/-- No step tells the slots of a block without a State. -/
theorem step_withSlots {s : State} (S : Slots) (hv : s.block.v = false) :
    SameAnswer (step s) (step (s.withSlots S)) := by
  have keep : ∀ {p}, s.pending = p → (s.withSlots S).pending = p := id
  match h : s.pending with
  | [] =>
    rw [step_idle h, step_idle (keep h)]
    exact ⟨_, _, rfl, rfl, .inr ⟨hv, S, rfl⟩⟩
  | .reset :: rest =>
    rw [step_reset h, step_reset (keep h)]
    exact ⟨_, _, rfl, rfl, .inr ⟨applyReset_v _, _, rfl⟩⟩
  | .command cw din :: rest =>
    match hd : decode cw with
    | .ok i =>
      rw [step_legal h hd, step_legal (keep h) hd]
      exact exec_withSlots (s := { s with pending := rest, din := din }) i S hv
    | .error e =>
      rw [step_illegal h hd, step_illegal (keep h) hd]
      exact raiseFault_withSlots (s := { s with pending := rest, din := din }) .illegalCommand S hv

/-- Every step keeps two states indistinguishable. -/
theorem State.Indistinguishable.step {s u : State} (h : s.Indistinguishable u) :
    SameAnswer (step s) (step u) := by
  obtain rfl | ⟨hv, S, rfl⟩ := h
  · obtain ⟨t, ht⟩ := step_answers_next s
    exact ⟨t, t, ht, ht, .inl rfl⟩
  · exact step_withSlots S hv

/-- A run after its first step. -/
theorem runSteps_of_next {n : Nat} {s t : State} (h : step s = .next t) : runSteps (n + 1) s = runSteps n t := by
  rw [runSteps, h]

/-- Every run keeps two states indistinguishable. -/
theorem State.Indistinguishable.runSteps {s u : State} (n : Nat) (h : s.Indistinguishable u) :
    SameAnswer (runSteps n s) (runSteps n u) := by
  induction n generalizing s u with
  | zero => exact ⟨s, u, rfl, rfl, h⟩
  | succ n ih =>
    obtain ⟨s', u', hs, hu, h'⟩ := h.step
    rw [runSteps_of_next hs, runSteps_of_next hu]
    exact ih h'

/-! ### What indistinguishable states have in common -/

namespace State.Indistinguishable

variable {s u : State}

theorem responses (h : s.Indistinguishable u) : s.responses = u.responses := by
  obtain rfl | ⟨_, _, rfl⟩ := h <;> rfl

theorem pending (h : s.Indistinguishable u) : s.pending = u.pending := by
  obtain rfl | ⟨_, _, rfl⟩ := h <;> rfl

theorem sameControl (h : s.Indistinguishable u) : s.block.sameControl u.block := by
  obtain rfl | ⟨_, _, rfl⟩ := h <;> exact ⟨rfl, rfl, rfl, rfl⟩

theorem block_eq (h : s.Indistinguishable u) (hv : s.block.v = true) : s.block = u.block := by
  obtain rfl | ⟨hv', _, _⟩ := h
  · rfl
  · rw [hv'] at hv; cases hv

end State.Indistinguishable

/-- Settles O2: the reset values by evaluation, and the two runs by the relation that every step keeps. -/
theorem resetValuesAndUnobservableSlots : Obligations.ResetValuesAndUnobservableSlots := by
  refine ⟨⟨rfl, rfl, rfl, rfl, by decide⟩, fun n s other hv => ?_⟩
  have start : s.Indistinguishable (s.withSlots other) := .inr ⟨hv, other, rfl⟩
  obtain ⟨t, u, ht, hu, h⟩ := start.runSteps n
  exact ⟨t, u, ht, hu, h.responses, h.pending, h.sameControl, h.block_eq⟩

end Sys2Proof.Machine

/-! PROOFS. The printed map and the decoder (30_encoding.md R66): matching a printed row and decoding to a command of
that row are the same, because each mask keeps the whole opcode and no two rows share an opcode. -/

namespace Sys2Proof

open Sys2Proof.Machine

/-! ### The rows of the opcode table -/

/-- The printed map is the decoder's table, row by row. -/
theorem printedRows_eq_map : printedRows = opcodeTable.map (fun row => (row.mtch, row.mask)) := rfl

/-- What a row builds is a command of that row. -/
theorem printedRow_build {row : OpcodeRow} (hrow : row ∈ opcodeTable) (cw : BitVec 32) :
    printedRow (row.build cw) = (row.mtch, row.mask) := by
  have all : ∀ row ∈ opcodeTable, printedRow (row.build cw) = (row.mtch, row.mask) := by
    simp only [opcodeTable, List.forall_mem_cons, List.not_mem_nil, false_implies, implies_true, printedRow, and_true]
  exact all row hrow

/-- Each mask keeps all six opcode bits, and each match word carries its row's opcode. -/
theorem opcodeField_mask_mtch : ∀ row ∈ opcodeTable,
    opcodeField row.mask = BitVec.allOnes 6 ∧ opcodeField row.mtch = row.op := by decide

/-- The first row with a row's opcode is the row itself. -/
theorem find?_op {row : OpcodeRow} (hrow : row ∈ opcodeTable) :
    opcodeTable.find? (fun r => r.op == row.op) = some row := by
  have all : ∀ row ∈ opcodeTable, opcodeTable.find? (fun r => r.op == row.op) = some row := by
    simp only [opcodeTable, List.forall_mem_cons, List.not_mem_nil, false_implies, implies_true, and_true]
    exact ⟨rfl, rfl, rfl, rfl, rfl, rfl, rfl, rfl, rfl, rfl, rfl, rfl, rfl, rfl⟩
  exact all row hrow

theorem opcodeField_and (x y : BitVec 32) : opcodeField (x &&& y) = opcodeField x &&& opcodeField y :=
  BitVec.extractLsb'_and

/-- A word that matches a row has the row's opcode. -/
theorem opcodeField_of_match {row : OpcodeRow} {cw : BitVec 32} (hrow : row ∈ opcodeTable)
    (hm : cw &&& row.mask = row.mtch) : opcodeField cw = row.op := by
  obtain ⟨hmask, hmtch⟩ := opcodeField_mask_mtch row hrow
  rw [← hmtch, ← hm, opcodeField_and, hmask, BitVec.and_allOnes]

/-! ### Matching and decoding -/

/-- A word that matches a printed row decodes to a command of that row. -/
theorem decode_of_printedRow_match {row : BitVec 32 × BitVec 32} {cw : BitVec 32} (hrow : row ∈ printedRows)
    (hm : cw &&& row.2 = row.1) : ∃ i, decode cw = .ok i ∧ printedRow i = row := by
  rw [printedRows_eq_map] at hrow
  obtain ⟨r, hr, rfl⟩ := List.mem_map.mp hrow
  have hfind : opcodeTable.find? (fun x => x.op == opcodeField cw) = some r := by
    rw [opcodeField_of_match hr hm]; exact find?_op hr
  exact ⟨r.build cw, decode_of_row hfind hm, printedRow_build hr cw⟩

/-- The row of the command that a word decodes to is printed, and the word matches it. -/
theorem printedRow_match_of_decode {cw : BitVec 32} {i : Instr} (h : decode cw = .ok i) :
    printedRow i ∈ printedRows ∧ cw &&& (printedRow i).2 = (printedRow i).1 := by
  obtain ⟨r, hr, -, hm, rfl⟩ := decode_eq_ok h
  rw [printedRow_build hr, printedRows_eq_map]
  exact ⟨List.mem_map.mpr ⟨r, hr, rfl⟩, hm⟩

/-- No word matches two printed rows: both would be the row of the one command it decodes to. -/
theorem printedRow_match_unique {row other : BitVec 32 × BitVec 32} {cw : BitVec 32} (hrow : row ∈ printedRows)
    (hother : other ∈ printedRows) (hm : cw &&& row.2 = row.1) (hm' : cw &&& other.2 = other.1) : row = other := by
  obtain ⟨i, hi, rfl⟩ := decode_of_printedRow_match hrow hm
  obtain ⟨j, hj, rfl⟩ := decode_of_printedRow_match hother hm'
  cases hi.symm.trans hj
  rfl

/-- Settles O8: decoding and matching a printed row imply each other, and decoding has one result. -/
theorem wordIsLegalExactlyWhenOneRowMatches : Obligations.WordIsLegalExactlyWhenOneRowMatches := by
  refine ⟨rfl, fun cw => ⟨⟨fun ⟨i, h⟩ => ⟨printedRow i, printedRow_match_of_decode h⟩, fun ⟨row, hrow, hm⟩ => ?_⟩,
    fun i h => printedRow_match_of_decode h, fun row hrow other hother => printedRow_match_unique hrow hother⟩⟩
  obtain ⟨i, h, -⟩ := decode_of_printedRow_match hrow hm
  exact ⟨i, h⟩

end Sys2Proof

/-! PROOFS. ROR bit by bit and its laws (40_arx_primitives.md R109): inside its domain `rorWord` is the library's
rotation, bit `k` of a rotation by `n` is bit `(k + n) mod w`, and each law compares two such positions. -/

namespace Sys2Proof.Machine

section Rotation

variable {w : Width} {m n : Nat}

theorem rorWord_zero (a : Word w) : rorWord a 0 = a := rfl

/-- The second line of R109. -/
theorem rorWord_of_pos (a : Word w) (h : 1 ≤ n) : rorWord a n = a >>> n ||| a <<< (w.bits - n) :=
  if_neg (Nat.one_le_iff_ne_zero.mp h)

/-- Within its domain ROR is the library's rotation: for the amount 0 the library's left shift is by the whole width
and leaves nothing. -/
theorem rorWord_eq_rotateRight (a : Word w) (hn : n < w.bits) : rorWord a n = a.rotateRight n := by
  rw [BitVec.rotateRight_def, Nat.mod_eq_of_lt hn]
  obtain rfl | h := Nat.eq_zero_or_pos n
  · simp [rorWord_zero]
  · exact rorWord_of_pos a h

/-- R109, bit by bit, with nothing above the width. -/
theorem getLsbD_rorWord (a : Word w) (hn : n < w.bits) (k : Nat) :
    (rorWord a n).getLsbD k = (decide (k < w.bits) && a.getLsbD ((k + n) % w.bits)) := by
  rw [rorWord_eq_rotateRight a hn, BitVec.getLsbD_rotateRight_of_lt hn]
  by_cases low : k < w.bits - n
  · have position : (k + n) % w.bits = n + k := by rw [Nat.mod_eq_of_lt (by omega), Nat.add_comm]
    have inside : k < w.bits := by omega
    simp [low, position, inside]
  · by_cases inside : k < w.bits
    · have position : (k + n) % w.bits = k - (w.bits - n) := by
        rw [Nat.mod_eq_sub_mod (by omega), Nat.mod_eq_of_lt (by omega)]; omega
      simp [low, position, inside]
    · simp [low, inside]

/-- Bit `k` of a rotation by `n`, inside the width. -/
theorem getLsbD_rorWord_of_lt (a : Word w) (hn : n < w.bits) {k : Nat} (hk : k < w.bits) :
    (rorWord a n).getLsbD k = a.getLsbD ((k + n) % w.bits) := by
  rw [getLsbD_rorWord a hn, decide_eq_true hk, Bool.true_and]

/-- Rotations compose by adding their amounts modulo the width. -/
theorem rorWord_rorWord (a : Word w) (hm : m < w.bits) (hn : n < w.bits) :
    rorWord (rorWord a m) n = rorWord a ((m + n) % w.bits) := by
  have below : ∀ i, i % w.bits < w.bits := fun i => Nat.mod_lt i (bits_pos w)
  refine BitVec.eq_of_getLsbD_eq fun k hk => ?_
  rw [getLsbD_rorWord_of_lt _ hn hk, getLsbD_rorWord_of_lt _ hm (below _), getLsbD_rorWord_of_lt _ (below _) hk]
  rw [Nat.mod_add_mod, Nat.add_mod_mod, Nat.add_assoc, Nat.add_comm n m]

theorem rorWord_zeros (hn : n < w.bits) : rorWord (0#w.bits) n = 0#w.bits := by
  refine BitVec.eq_of_getLsbD_eq fun k hk => ?_
  rw [getLsbD_rorWord_of_lt _ hn hk, BitVec.getLsbD_zero, BitVec.getLsbD_zero]

theorem rorWord_allOnes (hn : n < w.bits) : rorWord (BitVec.allOnes w.bits) n = BitVec.allOnes w.bits := by
  refine BitVec.eq_of_getLsbD_eq fun k hk => ?_
  rw [getLsbD_rorWord_of_lt _ hn hk, BitVec.getLsbD_allOnes, BitVec.getLsbD_allOnes]
  simp [hk, Nat.mod_lt _ (bits_pos w)]

end Rotation

/-- Settles O37: the two lines by definition, the laws from the bit form. -/
theorem rotateRightBitsAndLaws : Obligations.RotateRightBitsAndLaws := fun _ a _ _ hm hn =>
  ⟨rorWord_zero a, rorWord_of_pos a, fun _ hk => getLsbD_rorWord_of_lt a hn hk, rorWord_rorWord a hm hn,
    rorWord_zeros hn, rorWord_allOnes hn⟩

end Sys2Proof.Machine

/-! PROOFS. The amount check of SHL, ROR and XRL (40_arx_primitives.md R102): with a State the three commands are one
shape, a refusal guarded by `amountTooBig` before one result is written. -/

namespace Sys2Proof.Machine

/-- What taking a fault does: one response with the fault's code, the sticky `ERR`, and nothing else. -/
theorem raiseFault_spec (c : FaultCode) (s : State) :
    ∃ t, raiseFault c s = .next t ∧ s.answeredWith (.faulted c) t ∧
      t.block = { s.block with err := stickyErr s.block.err c } :=
  ⟨_, rfl, ⟨rfl, rfl, rfl, rfl⟩, rfl⟩

theorem amountTooBig_eq_false {w : Width} {n : BitVec 6} : amountTooBig w n = false ↔ n.toNat < w.bits := by
  simp [amountTooBig]

/-- A 6-bit amount can reach the width at width 32 only. -/
theorem eq_w32_of_bits_le_amount {w : Width} {n : BitVec 6} (h : w.bits ≤ n.toNat) : w = .w32 := by
  cases w with
  | w32 => rfl
  | w64 => exact absurd n.isLt (Nat.not_lt.mpr h)

/-- The three commands with an amount, given a State: the amount check, then some result written to `sd`. -/
theorem exec_amount_command {sd sa sb : SlotIx} {n : BitVec 6} {s : State} (hv : s.block.v = true) {i : Instr}
    (hi : i ∈ [Instr.shl sd sa n, Instr.ror sd sa n, Instr.xrl sd sa sb n]) :
    ∃ x : Word s.block.ws,
      exec i s = refuseIf (amountTooBig s.block.ws n) .badAmount s (writeResult sd x s) := by
  simp only [List.mem_cons, List.not_mem_nil, or_false] at hi
  obtain rfl | rfl | rfl := hi
  · exact ⟨_, needState_of_valid hv⟩
  · exact ⟨_, needState_of_valid hv⟩
  · exact ⟨_, needState_of_valid hv⟩

/-- Settles O19: the check's two outcomes are a fault taken and a result written. -/
theorem amountIsRefusedExactlyWhenAtLeastTheWidth : Obligations.AmountIsRefusedExactlyWhenAtLeastTheWidth := by
  intro sd sa sb n s hv i hi
  obtain ⟨x, hexec⟩ := exec_amount_command hv hi
  refine ⟨fun big => ⟨eq_w32_of_bits_le_amount big, ?_⟩, fun small => ?_⟩
  · rw [hexec, amountTooBig_eq_true.mpr big, refuseIf_true]
    exact raiseFault_spec .badAmount s
  · rw [hexec, amountTooBig_eq_false.mpr small, refuseIf_false]
    obtain ⟨t, ht, answered, -⟩ := writeResult_spec s sd x
    exact ⟨t, ht, answered⟩

end Sys2Proof.Machine

/-! PROOFS. The quarter-round G (41_quarter_round_g.md): its function is one half round twice, and a half round on four
different slots is what four primitive commands write. Sequences of commands are followed on the slots, with the control
state fixed. -/

namespace Sys2Proof.Machine

variable {w : Width}

/-! ### The half round -/

/-- Four of the eight assignments of R121: G is this half twice, with its own two amounts each time. -/
def halfRound (m n : Nat) (q : Quad w) : Quad w :=
  let a := adxWord q.a q.b
  let d := xrlWord a q.d m
  let c := adxWord q.c d
  ⟨a, xrlWord q.b c n, c, d⟩

theorem quarterRound_eq_halfRound_halfRound (q : Quad w) :
    quarterRound q = halfRound (rotationConstants w)[2] (rotationConstants w)[3]
      (halfRound (rotationConstants w)[0] (rotationConstants w)[1] q) := rfl

/-- Every amount of G is inside the rotation's domain. -/
theorem rotationConstants_lt_bits (w : Width) : ∀ k (_ : k < 4), (rotationConstants w)[k] < w.bits := by
  cases w <;> decide

theorem adxWord_zeros : adxWord (0#w.bits) 0#w.bits = 0#w.bits := by
  simp [adxWord, xorWord, andWord, shlWord]

theorem xrlWord_zeros {n : Nat} (hn : n < w.bits) : xrlWord (0#w.bits) 0#w.bits n = 0#w.bits := by
  rw [xrlWord, xorWord, BitVec.xor_self, rorWord_zeros hn]

theorem halfRound_zeros {m n : Nat} (hm : m < w.bits) (hn : n < w.bits) :
    halfRound m n (⟨0#w.bits, 0#w.bits, 0#w.bits, 0#w.bits⟩ : Quad w) =
      ⟨0#w.bits, 0#w.bits, 0#w.bits, 0#w.bits⟩ := by
  simp only [halfRound, adxWord_zeros, xrlWord_zeros hm, xrlWord_zeros hn]

/-- Settles O41: each half keeps the four zeros, since every amount is inside the rotation's domain. -/
theorem quarterRoundKeepsZero : Obligations.QuarterRoundKeepsZero := by
  intro w
  have inside := rotationConstants_lt_bits w
  rw [quarterRound_eq_halfRound_halfRound, halfRound_zeros (inside 0 _) (inside 1 _),
    halfRound_zeros (inside 2 _) (inside 3 _)]

/-! ### G refused -/

theorem slotsCoincide_eq_true {ga gb gc gd : SlotIx} :
    slotsCoincide ga gb gc gd = true ↔ ¬ [ga, gb, gc, gd].Nodup := by
  rw [← slotsCoincide_eq_false, Bool.not_eq_false]

/-- Settles O20: with a State the only check left is the one for coinciding slots, and it takes its fault. -/
theorem gRefusesCoincidingSlots : Obligations.GRefusesCoincidingSlots := by
  intro ga gb gc gd s hv coincide
  have refused : exec (.g ga gb gc gd) s = raiseFault .badOperand s := by
    rw [exec, execG, needState_of_valid hv, slotsCoincide_eq_true.mpr coincide, refuseIf_true]
  rw [refused]
  exact raiseFault_spec .badOperand s

/-! ### Four different slots -/

theorem pairwise_ne_of_nodup {ga gb gc gd : SlotIx} (h : [ga, gb, gc, gd].Nodup) :
    ga ≠ gb ∧ ga ≠ gc ∧ ga ≠ gd ∧ gb ≠ gc ∧ gb ≠ gd ∧ gc ≠ gd := by
  simpa [and_assoc] using h

/-- Writes to different slots commute. -/
theorem writeSlot_comm (S : Slots) {i j : SlotIx} (x y : Word w) (h : i ≠ j) :
    writeSlot (writeSlot S i x) j y = writeSlot (writeSlot S j y) i x :=
  Vector.set_comm _ _ fun e => h (Fin.ext e)

theorem readQuad_writeQuad (S : Slots) {ga gb gc gd : SlotIx} (q : Quad w) (h : [ga, gb, gc, gd].Nodup) :
    readQuad w (writeQuad S ga gb gc gd q) ga gb gc gd = q := by
  obtain ⟨ha, hb, hc, hd, -⟩ := getElem_writeQuad S q h
  simp only [readQuad, readSlot, ha, hb, hc, hd, toWord_toContainer]

/-- The second of two writes to the same four slots is the one that stays. -/
theorem writeQuad_writeQuad (S : Slots) {ga gb gc gd : SlotIx} (p q : Quad w) (h : [ga, gb, gc, gd].Nodup) :
    writeQuad (writeQuad S ga gb gc gd p) ga gb gc gd q = writeQuad S ga gb gc gd q := by
  obtain ⟨-, -, -, -, keptP⟩ := getElem_writeQuad S p h
  obtain ⟨a, b, c, d, kept⟩ := getElem_writeQuad S q h
  obtain ⟨a', b', c', d', kept'⟩ := getElem_writeQuad (writeQuad S ga gb gc gd p) q h
  refine slots_ext fun j => ?_
  by_cases hj : j ∈ [ga, gb, gc, gd]
  · simp only [List.mem_cons, List.not_mem_nil, or_false] at hj
    obtain rfl | rfl | rfl | rfl := hj
    · exact a'.trans a.symm
    · exact b'.trans b.symm
    · exact c'.trans c.symm
    · exact d'.trans d.symm
  · rw [kept' j hj, kept j hj, keptP j hj]

/-! ### The primitives on slots -/

/-- What ADX leaves in the slots. -/
def adxSlots (w : Width) (S : Slots) (sd sa sb : SlotIx) : Slots :=
  writeSlot S sd (adxWord (readSlot w S sa) (readSlot w S sb))

/-- What XRL leaves in the slots. -/
def xrlSlots (w : Width) (S : Slots) (sd sa sb : SlotIx) (n : Nat) : Slots :=
  writeSlot S sd (xrlWord (readSlot w S sa) (readSlot w S sb) n)

/-- Four primitives on four different slots write the half round of their words: each reads what those before it wrote,
and the order of the four writes does not matter. -/
theorem halfRound_slots (S : Slots) {ga gb gc gd : SlotIx} (m n : Nat) (h : [ga, gb, gc, gd].Nodup) :
    xrlSlots w (adxSlots w (xrlSlots w (adxSlots w S ga ga gb) gd ga gd m) gc gc gd) gb gb gc n =
      writeQuad S ga gb gc gd (halfRound m n (readQuad w S ga gb gc gd)) := by
  obtain ⟨ab, ac, ad, bc, bd, cd⟩ := pairwise_ne_of_nodup h
  simp only [adxSlots, xrlSlots, writeQuad, halfRound, readQuad, readSlot_writeSlot_self,
    readSlot_writeSlot_ne _ _ ab.symm, readSlot_writeSlot_ne _ _ ac.symm, readSlot_writeSlot_ne _ _ ad.symm,
    readSlot_writeSlot_ne _ _ bc, readSlot_writeSlot_ne _ _ bd, readSlot_writeSlot_ne _ _ cd]
  rw [writeSlot_comm _ _ _ bc.symm, writeSlot_comm _ _ _ bd.symm, writeSlot_comm _ _ _ cd.symm]

/-! ### Commands followed on the slots -/

/-- With the control state of `b`, and whatever stands beside the block, the commands take the slots from `S` to `S'`
and leave the control state alone. -/
def RunsTo (b : Block) (commands : List (Instr × BitVec 64)) (S S' : Slots) : Prop :=
  ∀ s : State, s.block = { b with slots := S } →
    ∃ t, execAll commands s = .next t ∧ t.block = { b with slots := S' }

namespace RunsTo

variable {b : Block} {S S' S'' : Slots}

/-- One sequence of commands after another. -/
theorem append {first rest : List (Instr × BitVec 64)} (h : RunsTo b first S S') (h' : RunsTo b rest S' S'') :
    RunsTo b (first ++ rest) S S'' := by
  intro s hs
  obtain ⟨t, ht, hb⟩ := h s hs
  rw [execAll_append ht]
  exact h' t hb

/-- One command that completes. -/
theorem of_complete {i : Instr} {din dout : BitVec 64}
    (h : ∀ s : State, s.block = { b with slots := S } → exec i s = complete s { b with slots := S' } dout) :
    RunsTo b [(i, din)] S S' := by
  intro s hs
  exact ⟨_, execAll_cons (h { s with din := din } hs), rfl⟩

theorem adx (hv : b.v = true) (sd sa sb : SlotIx) (din : BitVec 64) :
    RunsTo b [(.adx sd sa sb, din)] S (adxSlots b.ws S sd sa sb) :=
  of_complete (dout := 0#64) fun | ⟨_, _, _, _, _⟩, rfl => needState_of_valid hv

theorem xrl (hv : b.v = true) (sd sa sb : SlotIx) {n : BitVec 6} (hn : n.toNat < b.ws.bits) (din : BitVec 64) :
    RunsTo b [(.xrl sd sa sb n, din)] S (xrlSlots b.ws S sd sa sb n.toNat) := by
  refine of_complete (dout := 0#64) ?_
  rintro ⟨_, _, _, _, _⟩ rfl
  rw [exec, execXrl, needState_of_valid hv, amountTooBig_eq_false.mpr hn, refuseIf_false]
  rfl

/-- Four primitives are a half round on their slots. -/
theorem fourPrimitives (hv : b.v = true) {ga gb gc gd : SlotIx} (h : [ga, gb, gc, gd].Nodup) {m n : BitVec 6}
    (hm : m.toNat < b.ws.bits) (hn : n.toNat < b.ws.bits) :
    RunsTo b [(.adx ga ga gb, 0), (.xrl gd ga gd m, 0), (.adx gc gc gd, 0), (.xrl gb gb gc n, 0)] S
      (writeQuad S ga gb gc gd (halfRound m.toNat n.toNat (readQuad b.ws S ga gb gc gd))) := by
  rw [← halfRound_slots _ _ _ h]
  exact (((adx hv ga ga gb 0).append (xrl hv gd ga gd hm 0)).append (adx hv gc gc gd 0)).append (xrl hv gb gb gc hn 0)

/-- Eight primitives are a half round after a half round. -/
theorem eightPrimitives (hv : b.v = true) {ga gb gc gd : SlotIx} (h : [ga, gb, gc, gd].Nodup)
    {r0 r1 r2 r3 : BitVec 6} (h0 : r0.toNat < b.ws.bits) (h1 : r1.toNat < b.ws.bits) (h2 : r2.toNat < b.ws.bits)
    (h3 : r3.toNat < b.ws.bits) :
    RunsTo b [(.adx ga ga gb, 0), (.xrl gd ga gd r0, 0), (.adx gc gc gd, 0), (.xrl gb gb gc r1, 0),
        (.adx ga ga gb, 0), (.xrl gd ga gd r2, 0), (.adx gc gc gd, 0), (.xrl gb gb gc r3, 0)] S
      (writeQuad S ga gb gc gd
        (halfRound r2.toNat r3.toNat (halfRound r0.toNat r1.toNat (readQuad b.ws S ga gb gc gd)))) := by
  have both := (fourPrimitives (S := S) hv h h0 h1).append (fourPrimitives hv h h2 h3)
  rwa [readQuad_writeQuad _ _ h, writeQuad_writeQuad _ _ _ h] at both

end RunsTo

/-- Settles O42: the eight commands are two half rounds, and with the width's amounts these are G. -/
theorem gEqualsEightPrimitives : Obligations.GEqualsEightPrimitives := by
  intro ga gb gc gd s r0 r1 r2 r3 hv hn hr
  have inside := rotationConstants_lt_bits s.block.ws
  have amounts : r0.toNat = (rotationConstants s.block.ws)[0] ∧ r1.toNat = (rotationConstants s.block.ws)[1] ∧
      r2.toNat = (rotationConstants s.block.ws)[2] ∧ r3.toNat = (rotationConstants s.block.ws)[3] := by
    generalize s.block.ws = w at hr
    cases w <;> cases hr <;> decide
  obtain ⟨e0, e1, e2, e3⟩ := amounts
  obtain ⟨u, hu, hblock⟩ := RunsTo.eightPrimitives hv hn (e0 ▸ inside 0 _) (e1 ▸ inside 1 _)
    (e2 ▸ inside 2 _) (e3 ▸ inside 3 _) s rfl
  refine ⟨_, u, execG_accepted hv hn, hu, ?_⟩
  rw [hblock, e0, e1, e2, e3, ← quarterRound_eq_halfRound_halfRound]
  rfl

end Sys2Proof.Machine

/-! PROOFS. The round function F (42_round_f.md). A group of four slots is read and written as a whole, so groups with no
slot in common commute; and the eight G commands of a round write every slot, so that the slots they leave are the
containers of F's words. -/

namespace Sys2Proof.Machine

variable {w : Width}

/-! ### The slots of a group -/

/-- The four slots of a group. -/
def Group.slots (k : Group) : List SlotIx := [k.a, k.b, k.c, k.d]

theorem Group.mem_slots {k : Group} {i : SlotIx} : i ∈ k.slots ↔ i = k.a ∨ i = k.b ∨ i = k.c ∨ i = k.d := by
  simp [Group.slots]

/-- The words that G takes from a group. -/
def Group.quad (k : Group) (s : Words w) : Quad w := ⟨s[k.a], s[k.b], s[k.c], s[k.d]⟩

/-- Each group of a round has four different slots. -/
theorem nodup_slots_of_round : ∀ k ∈ columns ++ diagonals, k.slots.Nodup := by decide

/-- Every slot lies in a column. -/
theorem exists_column_of_slot : ∀ i : SlotIx, ∃ k ∈ columns, i ∈ k.slots := by decide

theorem columns_eq_or_disjoint : ∀ k ∈ columns, ∀ l ∈ columns, k = l ∨ ∀ i ∈ k.slots, i ∉ l.slots := by decide

theorem diagonals_eq_or_disjoint : ∀ k ∈ diagonals, ∀ l ∈ diagonals, k = l ∨ ∀ i ∈ k.slots, i ∉ l.slots := by decide

/-! ### Groups with no slot in common commute -/

/-- Every slot after G on a group: its own slots hold G's results, the others what they held. -/
theorem getElem_applyGroup (s : Words w) (k : Group) (i : SlotIx) :
    (applyGroup s k)[i] =
      if k.d = i then (quarterRound (k.quad s)).d
      else if k.c = i then (quarterRound (k.quad s)).c
      else if k.b = i then (quarterRound (k.quad s)).b
      else if k.a = i then (quarterRound (k.quad s)).a
      else s[i] := by
  simp only [applyGroup, Group.quad, Fin.getElem_fin, Vector.getElem_set, Fin.val_inj]

/-- A group leaves every slot outside it alone. -/
theorem getElem_applyGroup_of_notMem (s : Words w) {k : Group} {i : SlotIx} (h : i ∉ k.slots) :
    (applyGroup s k)[i] = s[i] := by
  simp only [Group.mem_slots, not_or] at h
  obtain ⟨ha, hb, hc, hd⟩ := h
  rw [getElem_applyGroup, if_neg (Ne.symm hd), if_neg (Ne.symm hc), if_neg (Ne.symm hb), if_neg (Ne.symm ha)]

/-- What a group leaves in its own slots depends on its four words only. -/
theorem getElem_applyGroup_congr {s t : Words w} {k : Group} {i : SlotIx} (h : i ∈ k.slots)
    (hq : k.quad s = k.quad t) : (applyGroup s k)[i] = (applyGroup t k)[i] := by
  rw [getElem_applyGroup, getElem_applyGroup, hq]
  obtain rfl | rfl | rfl | rfl := Group.mem_slots.mp h <;> simp

/-- A group with no slot in common with another leaves the other's words alone. -/
theorem Group.quad_applyGroup (s : Words w) {k l : Group} (h : ∀ i ∈ l.slots, i ∉ k.slots) :
    l.quad (applyGroup s k) = l.quad s := by
  simp only [Group.slots, List.forall_mem_cons] at h
  obtain ⟨ha, hb, hc, hd, -⟩ := h
  simp only [Group.quad, getElem_applyGroup_of_notMem s ha, getElem_applyGroup_of_notMem s hb,
    getElem_applyGroup_of_notMem s hc, getElem_applyGroup_of_notMem s hd]

/-- In a slot of one of two disjoint groups, only that group counts. -/
theorem getElem_applyGroup_applyGroup (s : Words w) {k l : Group} (h : ∀ i ∈ k.slots, i ∉ l.slots) {i : SlotIx}
    (hi : i ∈ k.slots) :
    (applyGroup (applyGroup s k) l)[i] = (applyGroup s k)[i] ∧
      (applyGroup (applyGroup s l) k)[i] = (applyGroup s k)[i] :=
  ⟨getElem_applyGroup_of_notMem _ (h i hi), getElem_applyGroup_congr hi (Group.quad_applyGroup s h)⟩

theorem applyGroup_comm (s : Words w) {k l : Group} (h : ∀ i ∈ k.slots, i ∉ l.slots) :
    applyGroup (applyGroup s k) l = applyGroup (applyGroup s l) k := by
  have h' : ∀ i ∈ l.slots, i ∉ k.slots := fun i hl hk => h i hk hl
  refine slots_ext fun i => ?_
  by_cases hk : i ∈ k.slots
  · obtain ⟨kl, lk⟩ := getElem_applyGroup_applyGroup s h hk
    exact kl.trans lk.symm
  by_cases hl : i ∈ l.slots
  · obtain ⟨lk, kl⟩ := getElem_applyGroup_applyGroup s h' hl
    exact kl.trans lk.symm
  simp only [getElem_applyGroup_of_notMem _ hk, getElem_applyGroup_of_notMem _ hl]

/-- A step of pairwise disjoint groups has the same outcome in every order. -/
theorem foldl_applyGroup_perm {ks ls : List Group} (p : ks.Perm ls)
    (h : ∀ k ∈ ls, ∀ l ∈ ls, k = l ∨ ∀ i ∈ k.slots, i ∉ l.slots) (s : Words w) :
    ks.foldl applyGroup s = ls.foldl applyGroup s := by
  refine (p.symm.foldl_eq' (fun k hk l hl t => ?_) s).symm
  obtain rfl | disjoint := h k hk l hl
  · rfl
  · exact applyGroup_comm t disjoint

/-! ### F of zeros -/

theorem applyGroup_zeros (k : Group) :
    applyGroup (Vector.replicate 16 0#w.bits) k = Vector.replicate 16 0#w.bits := by
  simp [applyGroup, quarterRoundKeepsZero w]

theorem roundWords_zeros : roundWords (Vector.replicate 16 0#w.bits) = Vector.replicate 16 0#w.bits :=
  List.foldl_fixed' applyGroup_zeros _

/-- Settles O45: disjoint groups commute, one single bit tells the two orders of the steps apart, and every group keeps
the zeros. -/
theorem groupOrderWithinAStepIsFree : Obligations.GroupOrderWithinAStepIsFree := by
  refine ⟨fun w s cs ds hc hd => ?_, fun w => ?_, fun _ => roundWords_zeros⟩
  · rw [roundWords, List.foldl_append, List.foldl_append, foldl_applyGroup_perm hc columns_eq_or_disjoint,
      foldl_applyGroup_perm hd diagonals_eq_or_disjoint]
  · refine ⟨#v[1, 0, 0, 0, 0, 0, 0, 0, 0, 0, 0, 0, 0, 0, 0, 0], ?_⟩
    cases w <;> decide

/-! ### The eight G commands -/

/-- What G on a group leaves in the slots. -/
def groupSlots (w : Width) (S : Slots) (k : Group) : Slots :=
  writeQuad S k.a k.b k.c k.d (quarterRound (readQuad w S k.a k.b k.c k.d))

/-- A group's G as a command. -/
def Group.command (k : Group) : Instr × BitVec 64 := (.g k.a k.b k.c k.d, 0)

/-- The words that a sequence of groups leaves in the slots. -/
theorem readAll_foldl_groupSlots (ks : List Group) (S : Slots) :
    readAll w (ks.foldl (groupSlots w) S) = ks.foldl applyGroup (readAll w S) :=
  (List.foldl_hom (readAll w) fun T k => (readAll_writeQuad T k).symm).symm

/-- After G on a group, a slot fits the width if it is of the group or did so before. -/
theorem groupSlots_fits (S : Slots) {k : Group} (hk : k.slots.Nodup) {i : SlotIx}
    (h : i ∈ k.slots ∨ (S[i]).toNat < 2 ^ w.bits) : ((groupSlots w S k)[i]).toNat < 2 ^ w.bits := by
  obtain ⟨a, b, c, d, kept⟩ := getElem_writeQuad S (quarterRound (readQuad w S k.a k.b k.c k.d)) hk
  by_cases hi : i ∈ k.slots
  · rw [groupSlots]
    obtain rfl | rfl | rfl | rfl := Group.mem_slots.mp hi
    · rw [a]; exact toContainer_fits _
    · rw [b]; exact toContainer_fits _
    · rw [c]; exact toContainer_fits _
    · rw [d]; exact toContainer_fits _
  · rw [groupSlots, kept i hi]
    exact h.resolve_left hi

/-- After a sequence of groups, a slot fits the width if some group has it or it did so before. -/
theorem foldl_groupSlots_fits {ks : List Group} (hks : ∀ k ∈ ks, k.slots.Nodup) {S : Slots} {i : SlotIx}
    (h : (∃ k ∈ ks, i ∈ k.slots) ∨ (S[i]).toNat < 2 ^ w.bits) :
    ((ks.foldl (groupSlots w) S)[i]).toNat < 2 ^ w.bits := by
  induction ks generalizing S with
  | nil => simpa using h
  | cons k ks ih =>
    obtain ⟨hk, hks⟩ := List.forall_mem_cons.mp hks
    rw [List.exists_mem_cons_iff] at h
    refine ih hks ?_
    obtain (here | later) | before := h
    · exact .inr (groupSlots_fits S hk (.inl here))
    · exact .inl later
    · exact .inr (groupSlots_fits S hk (.inr before))

/-- Slots that fit the width are the containers of their words. -/
theorem writeAll_readAll {S : Slots} (h : SlotsFit w S) : writeAll (readAll w S) = S :=
  Vector.ext fun k hk => by rw [getElem_writeAll, getElem_readAll]; exact toContainer_toWord (h ⟨k, hk⟩)

/-- The groups of a round on the slots are F on the slots: the columns alone write every slot, so nothing is left of the
containers before. -/
theorem foldl_groupSlots_round (S : Slots) : (columns ++ diagonals).foldl (groupSlots w) S = roundSlots w S := by
  have fits : SlotsFit w ((columns ++ diagonals).foldl (groupSlots w) S) := fun i => by
    obtain ⟨k, hk, hi⟩ := exists_column_of_slot i
    exact foldl_groupSlots_fits nodup_slots_of_round (.inl ⟨k, List.mem_append_left _ hk, hi⟩)
  rw [← writeAll_readAll fits, readAll_foldl_groupSlots]
  rfl

namespace RunsTo

variable {b : Block} {S : Slots}

theorem nil : RunsTo b [] S S := fun s hs => ⟨s, rfl, hs⟩

theorem group (hv : b.v = true) {k : Group} (hk : k.slots.Nodup) : RunsTo b [k.command] S (groupSlots b.ws S k) :=
  of_complete (dout := 0#64) fun | ⟨_, _, _, _, _⟩, rfl => execG_accepted hv hk

/-- G commands one after the other. -/
theorem groups (hv : b.v = true) {ks : List Group} (hks : ∀ k ∈ ks, k.slots.Nodup) :
    RunsTo b (ks.map Group.command) S (ks.foldl (groupSlots b.ws) S) := by
  induction ks generalizing S with
  | nil => exact nil
  | cons k ks ih =>
    obtain ⟨hk, hks⟩ := List.forall_mem_cons.mp hks
    exact (group hv hk).append (ih hks)

end RunsTo

theorem execF_accepted {s : State} (hv : s.block.v = true) :
    exec .f s = complete s { s.block with slots := roundSlots s.block.ws s.block.slots } 0#64 :=
  needState_of_valid hv

/-- Settles O44: the printed commands are the G commands of the round's groups in their order. -/
theorem fEqualsEightQuarterRounds : Obligations.FEqualsEightQuarterRounds := by
  intro s hv
  obtain ⟨u, hu, hblock⟩ := RunsTo.groups hv nodup_slots_of_round s rfl
  refine ⟨_, u, execF_accepted hv, hu, ?_⟩
  rw [hblock, foldl_groupSlots_round]
  rfl

end Sys2Proof.Machine

/-! PROOFS. Faults (60_exceptions.md). The fault of a command is a function of the command, `V`, `W`, `R` and the data-in
value, `faultOf`; `exec_answers` ties it to the model: a command takes that fault, or completes with `ERR` kept. Each
obligation then reads off one side of it. -/

namespace Sys2Proof.Machine

/-! ### An illegal word -/

/-- A word that matches no printed row does not decode. -/
theorem decode_of_no_printedRow_match {cw : BitVec 32} (h : ∀ row ∈ printedRows, cw &&& row.2 ≠ row.1) :
    ∃ e, decode cw = .error e := by
  cases hd : decode cw with
  | error e => exact ⟨e, rfl⟩
  | ok i =>
    obtain ⟨hrow, hm⟩ := printedRow_match_of_decode hd
    exact absurd hm (h _ hrow)

/-- Settles O10: the word does not decode, so the step takes the fault IllegalCommand whatever the state is. -/
theorem illegalWordIsRefusedInEveryState : Obligations.IllegalWordIsRefusedInEveryState := by
  intro s cw din rest hpending hno
  obtain ⟨e, hd⟩ := decode_of_no_printedRow_match hno
  obtain ⟨t, ht, ⟨hresponses, hrest, -, -⟩, hblock⟩ :=
    raiseFault_spec .illegalCommand { s with pending := rest, din := din }
  exact ⟨t, (step_illegal hpending hd).trans ht, hresponses, hrest, hblock⟩

/-! ### No State -/

/-- Settles O17: the commands that need a State are refused, and NEW and RDST complete in every state. -/
theorem noStateRefusesAllButNewAndRdst : Obligations.NoStateRefusesAllButNewAndRdst := by
  refine fun i s hv => ⟨fun ⟨hrdst, hnew⟩ => ?_, ?_⟩
  · rw [exec_without_state hv hnew hrdst]
    exact raiseFault_spec .noState s
  · rintro (rfl | ⟨ws, r, rfl⟩)
    · exact ⟨_, _, rfl, ⟨rfl, rfl, rfl, rfl⟩, rfl⟩
    · exact ⟨_, _, rfl, ⟨rfl, rfl, rfl, rfl⟩, rfl⟩

/-! ### The fault of a command -/

/-- NEW and RDST never raise NoState; every other command needs a State (60_exceptions.md R172). -/
def needsState : Instr → Bool
  | .new _ _ => false
  | .rdst => false
  | _ => true

/-- The fault of one check. -/
def faultIf (bad : Bool) (c : FaultCode) : Option FaultCode := bif bad then some c else none

/-- The fault of a command's own check, given a State (60_exceptions.md R175 to R178): at most one check per command. -/
def operandFault (s : State) : Instr → Option FaultCode
  | .lds _ => faultIf (tooWide s.block.ws s.din) .widthMismatch
  | .shl _ _ n => faultIf (amountTooBig s.block.ws n) .badAmount
  | .ror _ _ n => faultIf (amountTooBig s.block.ws n) .badAmount
  | .xrl _ _ _ n => faultIf (amountTooBig s.block.ws n) .badAmount
  | .g ga gb gc gd => faultIf (slotsCoincide ga gb gc gd) .badOperand
  | .inj _ _ => faultIf (roundsTooMany s.block.r) .parameterRange
  | .init _ _ => faultIf (roundsTooMany s.block.r) .parameterRange
  | _ => none

/-- The fault a command takes, NoState before its own check (60_exceptions.md R173). -/
def faultOf (s : State) (i : Instr) : Option FaultCode :=
  bif needsState i && !s.block.v then some .noState else operandFault s i

/-- The answer takes the given fault, or with none completes and keeps `ERR`. -/
def AnswersFault (s : State) : Option FaultCode → Answer → Prop
  | some c, a => a = raiseFault c s
  | none, a => ∃ b dout, b.err = s.block.err ∧ a = complete s b dout

namespace AnswersFault

variable {s : State}

theorem completed {b : Block} (dout : BitVec 64) (h : b.err = s.block.err) :
    AnswersFault s none (complete s b dout) := ⟨b, dout, h, rfl⟩

theorem refuseIf {bad : Bool} {c : FaultCode} {body : Answer} (h : AnswersFault s none body) :
    AnswersFault s (faultIf bad c) (refuseIf bad c s body) := by
  cases bad
  · exact h
  · exact rfl

theorem needState {f : Option FaultCode} {body : Answer} (h : AnswersFault s f body) :
    AnswersFault s (bif !s.block.v then some .noState else f) (needState s body) := by
  cases hv : s.block.v
  · exact needState_of_invalid hv
  · rw [needState_of_valid hv]; exact h

end AnswersFault

/-- Every command takes the fault `faultOf` names, or completes and keeps `ERR`. -/
theorem exec_answers (s : State) (i : Instr) : AnswersFault s (faultOf s i) (exec i s) := by
  cases i with
  | new ws r => exact .completed _ rfl
  | rdst => exact .completed _ rfl
  | lds sd => exact .needState (.refuseIf (.completed _ rfl))
  | rds sa => exact .needState (.completed _ rfl)
  | xor sd sa sb => exact .needState (.completed _ rfl)
  | and sd sa sb => exact .needState (.completed _ rfl)
  | shl sd sa n => exact .needState (.refuseIf (.completed _ rfl))
  | ror sd sa n => exact .needState (.refuseIf (.completed _ rfl))
  | adx sd sa sb => exact .needState (.completed _ rfl)
  | xrl sd sa sb v => exact .needState (.refuseIf (.completed _ rfl))
  | g ga gb gc gd => exact .needState (.refuseIf (.completed _ rfl))
  | f => exact .needState (.completed _ rfl)
  | inj d a => exact .needState (.refuseIf (.completed _ rfl))
  | init d a => exact .needState (.refuseIf (.completed _ rfl))

/-- A command with a fault takes it. -/
theorem exec_of_fault {s : State} {i : Instr} {c : FaultCode} (h : faultOf s i = some c) :
    exec i s = raiseFault c s := by
  have := exec_answers s i
  rwa [h] at this

/-- A command without a fault completes and keeps `ERR`. -/
theorem exec_of_no_fault {s : State} {i : Instr} (h : faultOf s i = none) :
    ∃ b dout, b.err = s.block.err ∧ exec i s = complete s b dout := by
  have := exec_answers s i
  rwa [h] at this

/-! ### What a faulting command changes -/

/-- The response of a taken fault is its code, and `ERR` is set by it when it was 0 and kept otherwise (R174). -/
theorem raiseFault_changes_only_err {s t : State} {c : FaultCode} {r : Response} (ht : raiseFault c s = .next t)
    (hr : t.responses = s.responses ++ [r]) :
    r = .faulted c ∧ t.block = { s.block with err := t.block.err } ∧
      (s.block.err = none → errCode t.block.err = c.code) ∧ (s.block.err ≠ none → t.block.err = s.block.err) := by
  obtain rfl := raiseFault_eq_next ht
  have hr' : [Response.faulted c] = [r] := List.append_cancel_left hr
  refine ⟨(List.singleton_inj.mp hr').symm, rfl, fun hnone => ?_, fun hsome => ?_⟩
  · simp [hnone, errCode]
  · obtain ⟨first, hfirst⟩ := Option.ne_none_iff_exists'.mp hsome
    simp [hfirst]

/-- The response of a completed command has status 0, and the block is the given one. -/
theorem complete_response {s t : State} {b : Block} {dout : BitVec 64} {r : Response}
    (ht : complete s b dout = .next t) (hr : t.responses = s.responses ++ [r]) : r = ⟨0#3, dout⟩ ∧ t.block = b := by
  obtain rfl := complete_eq_next ht
  have hr' : [(⟨0#3, dout⟩ : Response)] = [r] := List.append_cancel_left hr
  exact ⟨(List.singleton_inj.mp hr').symm, rfl⟩

/-- A step with a command pending takes a fault, or completes the command and keeps `ERR`. -/
theorem step_command_cases {s : State} {cw : BitVec 32} {din : BitVec 64} {rest : List HostEvent}
    (h : s.pending = .command cw din :: rest) :
    (∃ c, step s = raiseFault c { s with pending := rest, din := din }) ∨
    (∃ b dout, b.err = s.block.err ∧ step s = complete { s with pending := rest, din := din } b dout) := by
  cases hd : decode cw with
  | error e => exact .inl ⟨_, step_illegal h hd⟩
  | ok i =>
    rw [step_legal h hd]
    cases hf : faultOf { s with pending := rest, din := din } i with
    | some c => exact .inl ⟨c, exec_of_fault hf⟩
    | none => exact .inr (exec_of_no_fault hf)

/-- Settles O15: the step's answer is a fault taken or a command completed; the status tells which. -/
theorem faultChangesOnlyErr : Obligations.FaultChangesOnlyErr := by
  intro s t cw din rest r hpending hstep hr
  obtain ⟨c, e⟩ | ⟨b, dout, hb, e⟩ := step_command_cases hpending
  · obtain ⟨rfl, hblock, hfirst, hkept⟩ := raiseFault_changes_only_err (e.symm.trans hstep) hr
    exact ⟨fun _ => ⟨rfl, hblock, hfirst, hkept⟩, fun h => absurd h (code_ne_zero c)⟩
  · obtain ⟨rfl, rfl⟩ := complete_response (e.symm.trans hstep) hr
    exact ⟨fun h => absurd rfl h, fun _ => hb⟩

/-! ### Where each fault is raised -/

/-- A command is answered with a fault's code exactly when the fault is the command's. -/
theorem response_faulted_iff {i : Instr} {s t : State} (c : FaultCode) (ht : exec i s = .next t) :
    t.responses = s.responses ++ [.faulted c] ↔ faultOf s i = some c := by
  cases hf : faultOf s i with
  | none =>
    obtain ⟨b, dout, -, e⟩ := exec_of_no_fault hf
    refine ⟨fun hr => ?_, nofun⟩
    obtain ⟨h, -⟩ := complete_response (e.symm.trans ht) hr
    exact absurd (congrArg Response.st h) (code_ne_zero c)
  | some d =>
    have hd : raiseFault d s = .next t := (exec_of_fault hf).symm.trans ht
    refine ⟨fun hr => ?_, fun h => ?_⟩
    · obtain ⟨h, -⟩ := raiseFault_changes_only_err hd hr
      rw [code_injective (congrArg Response.st h)]
    · obtain rfl := Option.some.inj h
      rw [raiseFault_eq_next hd]
      rfl

theorem faultIf_eq_some {bad : Bool} {c d : FaultCode} : faultIf bad c = some d ↔ bad = true ∧ c = d := by
  cases bad <;> simp [faultIf]

theorem needsState_eq_true {i : Instr} : needsState i = true ↔ i ≠ .rdst ∧ ∀ ws r, i ≠ .new ws r := by
  cases i <;> simp [needsState]

/-- NEW and RDST have no check of their own. -/
theorem operandFault_of_needsState_false {s : State} {i : Instr} (h : needsState i = false) :
    operandFault s i = none := by
  cases i with
  | new ws r => rfl
  | rdst => rfl
  | _ => cases h

theorem faultOf_of_valid {s : State} {i : Instr} (hv : s.block.v = true) : faultOf s i = operandFault s i := by
  simp [faultOf, hv]

theorem faultOf_of_invalid {s : State} {i : Instr} (hv : s.block.v = false) :
    faultOf s i = faultIf (needsState i) .noState := by
  cases hi : needsState i with
  | true => simp [faultOf, faultIf, hv, hi]
  | false => simp [faultOf, faultIf, hi, operandFault_of_needsState_false]

/-- No command's own check raises NoState: that is the check before it (R173). -/
theorem operandFault_ne_noState (s : State) (i : Instr) : operandFault s i ≠ some .noState := by
  cases i <;> simp [operandFault, faultIf_eq_some]

/-- No command's own check raises IllegalCommand: decoding does (R173). -/
theorem operandFault_ne_illegalCommand (s : State) (i : Instr) : operandFault s i ≠ some .illegalCommand := by
  cases i <;> simp [operandFault, faultIf_eq_some]

/-- R172. -/
theorem faultOf_eq_noState {s : State} {i : Instr} :
    faultOf s i = some .noState ↔ s.block.v = false ∧ needsState i = true := by
  cases hv : s.block.v with
  | true => simp [faultOf_of_valid hv, operandFault_ne_noState]
  | false => simp [faultOf_of_invalid hv, faultIf_eq_some]

/-- R173: a fault other than NoState is that of the command's own check, made given a State. -/
theorem faultOf_eq_some {s : State} {i : Instr} {c : FaultCode} (hc : c ≠ .noState) :
    faultOf s i = some c ↔ s.block.v = true ∧ operandFault s i = some c := by
  cases hv : s.block.v with
  | true => simp [faultOf_of_valid hv]
  | false => simp [faultOf_of_invalid hv, faultIf_eq_some, hc.symm]

/-- A data-in value can be too wide at width 32 only. -/
theorem tooWide_iff {w : Width} {din : BitVec 64} : tooWide w din = true ↔ w = .w32 ∧ 2 ^ 32 ≤ din.toNat := by
  rw [tooWide_eq_true]
  cases w with
  | w32 => exact (and_iff_right rfl).symm
  | w64 => exact iff_of_false (Nat.not_le.mpr din.isLt) nofun

/-- An amount can be too big at width 32 only. -/
theorem amountTooBig_iff {w : Width} {n : BitVec 6} : amountTooBig w n = true ↔ w = .w32 ∧ 32 ≤ n.toNat := by
  rw [amountTooBig_eq_true]
  refine ⟨fun h => ?_, fun ⟨hw, h⟩ => hw ▸ h⟩
  obtain rfl := eq_w32_of_bits_le_amount h
  exact ⟨rfl, h⟩

/-- R175. -/
theorem operandFault_eq_widthMismatch {s : State} {i : Instr} : operandFault s i = some .widthMismatch ↔
    s.block.ws = .w32 ∧ 2 ^ 32 ≤ s.din.toNat ∧ ∃ sd, i = .lds sd := by
  cases i <;> simp [operandFault, faultIf_eq_some, tooWide_iff]

/-- R176. -/
theorem operandFault_eq_badAmount {s : State} {i : Instr} : operandFault s i = some .badAmount ↔
    s.block.ws = .w32 ∧ ∃ n : BitVec 6, 32 ≤ n.toNat ∧
      ((∃ sd sa, i = .shl sd sa n) ∨ (∃ sd sa, i = .ror sd sa n) ∨ ∃ sd sa sb, i = .xrl sd sa sb n) := by
  cases i <;> simp [operandFault, faultIf_eq_some, amountTooBig_iff]

/-- R177. -/
theorem operandFault_eq_badOperand {s : State} {i : Instr} : operandFault s i = some .badOperand ↔
    ∃ ga gb gc gd, i = .g ga gb gc gd ∧ ¬ [ga, gb, gc, gd].Nodup := by
  cases i with
  | g ga gb gc gd =>
    rw [operandFault, faultIf_eq_some, slotsCoincide_eq_true]
    refine ⟨fun ⟨h, _⟩ => ⟨ga, gb, gc, gd, rfl, h⟩, ?_⟩
    rintro ⟨_, _, _, _, ⟨⟩, h⟩
    exact ⟨h, rfl⟩
  | _ => simp [operandFault, faultIf_eq_some]

/-- R178. -/
theorem operandFault_eq_parameterRange {s : State} {i : Instr} : operandFault s i = some .parameterRange ↔
    64 ≤ s.block.r.toNat ∧ ((∃ d a, i = .inj d a) ∨ ∃ d a, i = .init d a) := by
  cases i <;> simp [operandFault, faultIf_eq_some, roundsTooMany_eq_true]

/-- Settles O16: the response names the command's fault, and each fault is that of its own rule. -/
theorem faultsExactlyWhereTheRulesSay : Obligations.FaultsExactlyWhereTheRulesSay := by
  intro i s t c ht
  refine (response_faulted_iff c ht).trans ?_
  cases c with
  | noState => rw [faultOf_eq_noState, needsState_eq_true]
  | illegalCommand => simp [faultOf_eq_some, operandFault_ne_illegalCommand]
  | widthMismatch => rw [faultOf_eq_some (by decide), operandFault_eq_widthMismatch]
  | badAmount => rw [faultOf_eq_some (by decide), operandFault_eq_badAmount]
  | badOperand => rw [faultOf_eq_some (by decide), operandFault_eq_badOperand]
  | parameterRange => rw [faultOf_eq_some (by decide), operandFault_eq_parameterRange]

/-! ### The own checks of LDS, INJ and INIT -/

/-- Given a State, a command whose own check fails takes that fault and changes nothing but `ERR`. -/
theorem exec_of_operandFault {s : State} {i : Instr} {c : FaultCode} (hv : s.block.v = true)
    (h : operandFault s i = some c) :
    ∃ t, exec i s = .next t ∧ s.answeredWith (.faulted c) t ∧
      t.block = { s.block with err := stickyErr s.block.err c } := by
  rw [exec_of_fault ((faultOf_of_valid hv).trans h)]
  exact raiseFault_spec c s

/-- A 64-bit value with a bit set above bit 31 is `2^32` or more. -/
theorem two_pow_le_of_high_bits {din : BitVec 64} (h : din.extractLsb' 32 32 ≠ 0#32) : 2 ^ 32 ≤ din.toNat := by
  by_contra hsmall
  refine h (BitVec.eq_of_toNat_eq ?_)
  have hdiv : din.toNat / 2 ^ 32 = 0 := Nat.div_eq_of_lt (Nat.not_le.mp hsmall)
  rw [BitVec.extractLsb'_toNat, Nat.shiftRight_eq_div_pow, hdiv]
  rfl

/-- Settles O18: a bit above bit 31 makes the value `2^32` or more, which LDS's own check refuses at width 32. -/
theorem ldsRefusesAValueThatDoesNotFit : Obligations.LdsRefusesAValueThatDoesNotFit := fun sd _ hv hws hdin =>
  exec_of_operandFault hv (operandFault_eq_widthMismatch.mpr ⟨hws, two_pow_le_of_high_bits hdin, sd, rfl⟩)

/-- Settles O21: both commands have the one check, on the round count. -/
theorem injAndInitRefuseTooManyRounds : Obligations.InjAndInitRefuseTooManyRounds := by
  intro d a s hv hr i hi
  have hcommand : (∃ d a, i = .inj d a) ∨ ∃ d a, i = .init d a := by
    simp only [List.mem_cons, List.not_mem_nil, or_false] at hi
    exact hi.imp (fun h => ⟨d, a, h⟩) fun h => ⟨d, a, h⟩
  exact exec_of_operandFault hv (operandFault_eq_parameterRange.mpr ⟨hr, hcommand⟩)

end Sys2Proof.Machine

/-! PROOFS. Decoding and encoding undo each other (30_encoding.md R61 to R71). A placed field is read back where it was
placed and nowhere else; a word is its row's match word together with the bits its mask leaves free. -/

namespace Sys2Proof

open Sys2Proof.Machine

/-! ### Fields placed and read back -/

section Fields

variable {k l lo : Nat}

/-- A field is read back from its own place. -/
theorem extractLsb'_place_self (x : BitVec k) (h : lo + k ≤ 32) : (place x lo).extractLsb' lo k = x := by
  refine BitVec.eq_of_getLsbD_eq fun j hj => ?_
  have inside : lo + j < 32 := by omega
  simp [place, hj, inside]

/-- Nothing of a field is read from a place beside it. -/
theorem extractLsb'_place_of_disjoint (x : BitVec k) {there : Nat} (h : lo + l ≤ there ∨ there + k ≤ lo) :
    (place x there).extractLsb' lo l = 0#l := by
  refine BitVec.eq_of_getLsbD_eq fun j hj => ?_
  rw [BitVec.getLsbD_extractLsb', place, BitVec.getLsbD_shiftLeft, BitVec.getLsbD_zero]
  obtain above | below := h
  · have : lo + j < there := by omega
    simp [this]
  · have : k ≤ lo + j - there := by omega
    simp [BitVec.getLsbD_of_ge x _ this]

/-- A field read and placed again is the word with everything else cleared. -/
theorem place_extractLsb' (cw : BitVec 32) (lo k : Nat) :
    place (cw.extractLsb' lo k) lo = cw &&& place (BitVec.allOnes k) lo := by
  refine BitVec.eq_of_getLsbD_eq fun j hj => ?_
  by_cases h : lo ≤ j
  · have position : lo + (j - lo) = j := by omega
    simp only [place, BitVec.getLsbD_and, BitVec.getLsbD_shiftLeft, BitVec.getLsbD_setWidth,
      BitVec.getLsbD_extractLsb', BitVec.getLsbD_allOnes, position]
    ac_rfl
  · have : j < lo := by omega
    simp [place, this]

theorem placeSlot_slotField (cw : BitVec 32) (lo : Nat) :
    placeSlot (slotField cw lo) lo = cw &&& place (BitVec.allOnes 4) lo := by
  rw [← place_extractLsb', placeSlot, slotField, BitVec.val_toFin, BitVec.ofNat_toNat, BitVec.setWidth_eq]

theorem toFin_ofNat_slot (i : SlotIx) : (BitVec.ofNat 4 i.val).toFin = i := Fin.ext (Nat.mod_eq_of_lt i.isLt)

theorem widthOfBit_wsBit (w : Width) : widthOfBit (wsBit w) = w := by cases w <;> rfl

theorem wsBit_widthOfBit (b : BitVec 1) : wsBit (widthOfBit b) = b := by revert b; decide

end Fields

/-! ### Decoding what was encoded -/

/-- A word that matches a row decodes to what the row builds of it. -/
theorem decode_of_match {row : OpcodeRow} {cw : BitVec 32} (hrow : row ∈ opcodeTable)
    (hm : cw &&& row.mask = row.mtch) : decode cw = .ok (row.build cw) := by
  have hfind : opcodeTable.find? (fun r => r.op == opcodeField cw) = some row := by
    rw [opcodeField_of_match hrow hm]; exact find?_op hrow
  exact decode_of_row hfind hm

/-- A command's row of the opcode table. -/
def rowIndex : Instr → Fin 14
  | .new _ _ => 0
  | .lds _ => 1
  | .rds _ => 2
  | .rdst => 3
  | .xor _ _ _ => 4
  | .and _ _ _ => 5
  | .shl _ _ _ => 6
  | .ror _ _ _ => 7
  | .adx _ _ _ => 8
  | .xrl _ _ _ _ => 9
  | .g _ _ _ _ => 10
  | .f => 11
  | .inj _ _ => 12
  | .init _ _ => 13

/-- A command's word matches its row. -/
theorem encode_matches_row (i : Instr) :
    encode i &&& opcodeTable[rowIndex i].mask = opcodeTable[rowIndex i].mtch :=
  match i with
  | .new ws r => Laws.MatchesRow.new ws r
  | .lds sd => Laws.MatchesRow.lds sd
  | .rds sa => Laws.MatchesRow.rds sa
  | .rdst => Laws.MatchesRow.rdst
  | .xor sd sa sb => Laws.MatchesRow.xor sd sa sb
  | .and sd sa sb => Laws.MatchesRow.and sd sa sb
  | .shl sd sa n => Laws.MatchesRow.shl sd sa n
  | .ror sd sa n => Laws.MatchesRow.ror sd sa n
  | .adx sd sa sb => Laws.MatchesRow.adx sd sa sb
  | .xrl sd sa sb v => Laws.MatchesRow.xrl sd sa sb v
  | .g ga gb gc gd => Laws.MatchesRow.g ga gb gc gd
  | .f => Laws.MatchesRow.f
  | .inj d a => Laws.MatchesRow.inj d a
  | .init d a => Laws.MatchesRow.init d a

/-- A command's row reads its fields back from its word. -/
theorem build_encode (i : Instr) : opcodeTable[rowIndex i].build (encode i) = i := by
  cases i <;>
    simp (disch := decide) only [rowIndex, opcodeTable, Fin.getElem_fin, Fin.coe_ofNat_eq_mod, Nat.reduceMod,
      List.getElem_cons_zero, List.getElem_cons_succ, encode, threeSlots, formatI, formatP, placeSlot, slotField,
      amountField, parallelismField, tagField, BitVec.extractLsb'_or, extractLsb'_place_self,
      extractLsb'_place_of_disjoint, BitVec.zero_or, BitVec.or_zero, toFin_ofNat_slot, widthOfBit_wsBit]

/-- A command's word decodes to the command. -/
theorem decode_encode (i : Instr) : decode (encode i) = .ok i :=
  (decode_of_match (List.getElem_mem _) (encode_matches_row i)).trans (congrArg _ (build_encode i))

/-- Settles O6: the command's word matches the command's row, and this row reads back each field. -/
theorem decodeOfEncodeIsTheCommand : Obligations.DecodeOfEncodeIsTheCommand := decode_encode

/-! ### Encoding what was decoded -/

/-- A word that matches is the match word together with the word's bits outside the mask. -/
theorem or_and_free_of_match {cw mask mtch free : BitVec 32} (hm : cw &&& mask = mtch)
    (hfree : mask ||| free = BitVec.allOnes 32) : mtch ||| cw &&& free = cw := by
  rw [← hm, ← BitVec.and_or_distrib_left, hfree, BitVec.and_allOnes]

/-- A word that matches a row is the word of the command the row builds of it: the fields are just the bits that the
row's mask leaves free. -/
theorem encode_build {cw : BitVec 32} :
    ∀ row ∈ opcodeTable, cw &&& row.mask = row.mtch → encode (row.build cw) = cw := by
  simp only [opcodeTable, List.forall_mem_cons, List.not_mem_nil, false_implies, implies_true, and_true, encode,
    threeSlots, formatI, formatP, amountField, parallelismField, tagField, wsBit_widthOfBit, placeSlot_slotField,
    place_extractLsb', BitVec.or_assoc, ← BitVec.and_or_distrib_left]
  have all : cw &&& 0xFFFFFFFF#32 = cw := BitVec.and_allOnes
  exact ⟨(or_and_free_of_match · (by decide)), (or_and_free_of_match · (by decide)),
    (or_and_free_of_match · (by decide)), fun hm => hm.symm.trans all, (or_and_free_of_match · (by decide)),
    (or_and_free_of_match · (by decide)), (or_and_free_of_match · (by decide)),
    (or_and_free_of_match · (by decide)), (or_and_free_of_match · (by decide)),
    (or_and_free_of_match · (by decide)), (or_and_free_of_match · (by decide)),
    fun hm => hm.symm.trans all, (or_and_free_of_match · (by decide)), (or_and_free_of_match · (by decide))⟩

theorem encode_of_decode {cw : BitVec 32} {i : Instr} (h : decode cw = .ok i) : encode i = cw := by
  obtain ⟨row, hrow, -, hm, rfl⟩ := decode_eq_ok h
  exact encode_build row hrow hm

/-- Settles O7: the word matches a row, whose fields and match word are all of it. -/
theorem encodeOfDecodeIsTheWord : Obligations.EncodeOfDecodeIsTheWord := fun _ _ => encode_of_decode

/-- Settles O9: each printed command encodes to the printed word. -/
theorem writtenWordsDecodeAsTheSpecSays : Obligations.WrittenWordsDecodeAsTheSpecSays :=
  ⟨decode_encode (.new .w64 2), decode_encode (.rds 14), decode_encode (.xor 5 0 1), decode_encode (.ror 3 0 13),
    decode_encode (.xrl 4 0 1 11), decode_encode (.g 1 6 11 12), decode_encode .f, decode_encode (.init 255 1023)⟩

end Sys2Proof

/-! PROOFS. What a command does, as a function of the block and the data-in value: it takes the fault `faultOf`, or
leaves `completedBlock` and answers `dataOut`. The invariants and frames of commands and steps are read off these. -/

namespace Sys2Proof.Machine

/-! ### A completed command -/

/-- The slots that a completed command leaves. -/
def completedSlots (b : Block) (din : BitVec 64) : Instr → Slots
  | .new _ _ => Vector.replicate 16 0#64
  | .lds sd => writeSlot b.slots sd (toWord b.ws din)
  | .rds _ => b.slots
  | .rdst => b.slots
  | .xor sd sa sb => writeSlot b.slots sd (xorWord (readSlot b.ws b.slots sa) (readSlot b.ws b.slots sb))
  | .and sd sa sb => writeSlot b.slots sd (andWord (readSlot b.ws b.slots sa) (readSlot b.ws b.slots sb))
  | .shl sd sa n => writeSlot b.slots sd (shlWord (readSlot b.ws b.slots sa) n.toNat)
  | .ror sd sa n => writeSlot b.slots sd (rorWord (readSlot b.ws b.slots sa) n.toNat)
  | .adx sd sa sb => adxSlots b.ws b.slots sd sa sb
  | .xrl sd sa sb v => xrlSlots b.ws b.slots sd sa sb v.toNat
  | .g ga gb gc gd => groupSlots b.ws b.slots ⟨ga, gb, gc, gd⟩
  | .f => roundSlots b.ws b.slots
  | .inj d a => injectSlots b.ws (Config.ic b.ws) b.r d a b.slots
  | .init d a => (roundSlots b.ws)^[b.r.toNat] (injectSlots b.ws (Config.ic b.ws) b.r d a b.slots)

/-- The block that a completed command leaves: only NEW writes `W`, `R` and `V`. -/
def completedBlock (b : Block) (din : BitVec 64) (i : Instr) : Block :=
  match i with
  | .new ws r => { slots := completedSlots b din i, ws := ws, r := r, v := true, err := b.err }
  | _ => { b with slots := completedSlots b din i }

/-- The data-out value of a completed command. -/
def dataOut (b : Block) : Instr → BitVec 64
  | .rds sa => toContainer (readSlot b.ws b.slots sa)
  | .rdst => stat b
  | _ => 0#64

/-- The fault taken, or with none the command completed. -/
def answerWith (s : State) (f : Option FaultCode) (b : Block) (dout : BitVec 64) : Answer :=
  match f with
  | some c => raiseFault c s
  | none => complete s b dout

theorem needState_answerWith (s : State) (f : Option FaultCode) (b : Block) (dout : BitVec 64) :
    needState s (answerWith s f b dout) = answerWith s (bif !s.block.v then some .noState else f) b dout := by
  cases hv : s.block.v
  · exact needState_of_invalid hv
  · exact needState_of_valid hv

theorem needState_refuseIf (s : State) (bad : Bool) (c : FaultCode) (b : Block) (dout : BitVec 64) :
    needState s (refuseIf bad c s (complete s b dout)) =
      answerWith s (bif !s.block.v then some .noState else faultIf bad c) b dout := by
  rw [← needState_answerWith]
  cases bad <;> rfl

/-- What a command does. -/
theorem exec_eq (i : Instr) (s : State) :
    exec i s = answerWith s (faultOf s i) (completedBlock s.block s.din i) (dataOut s.block i) := by
  cases i with
  | new ws r => rfl
  | rdst => rfl
  | lds sd => exact needState_refuseIf ..
  | rds sa => exact needState_answerWith s none ..
  | xor sd sa sb => exact needState_answerWith s none ..
  | and sd sa sb => exact needState_answerWith s none ..
  | shl sd sa n => exact needState_refuseIf ..
  | ror sd sa n => exact needState_refuseIf ..
  | adx sd sa sb => exact needState_answerWith s none ..
  | xrl sd sa sb v => exact needState_refuseIf ..
  | g ga gb gc gd => exact needState_refuseIf ..
  | f => exact needState_answerWith s none ..
  | inj d a => exact needState_refuseIf ..
  | init d a => exact needState_refuseIf ..

/-- A command without a fault completes. -/
theorem exec_completes {i : Instr} {s : State} (h : faultOf s i = none) :
    exec i s = complete s (completedBlock s.block s.din i) (dataOut s.block i) := by
  rw [exec_eq, h]; rfl

/-- What a command without a fault leaves and answers. -/
theorem exec_completed_spec {i : Instr} {s : State} (h : faultOf s i = none) :
    ∃ t, exec i s = .next t ∧ s.answeredWith ⟨0#3, dataOut s.block i⟩ t ∧
      t.block = completedBlock s.block s.din i :=
  ⟨_, exec_completes h, ⟨rfl, rfl, rfl, rfl⟩, rfl⟩

/-- What the next state of a command can be. -/
theorem exec_next_cases {i : Instr} {s t : State} (h : exec i s = .next t) :
    (∃ c, faultOf s i = some c ∧ s.answeredWith (.faulted c) t ∧
      t.block = { s.block with err := stickyErr s.block.err c }) ∨
    (faultOf s i = none ∧ s.answeredWith ⟨0#3, dataOut s.block i⟩ t ∧
      t.block = completedBlock s.block s.din i) := by
  cases hf : faultOf s i with
  | some c =>
    rw [exec_of_fault hf] at h
    obtain rfl := raiseFault_eq_next h
    exact .inl ⟨c, rfl, ⟨rfl, rfl, rfl, rfl⟩, rfl⟩
  | none =>
    rw [exec_completes hf] at h
    obtain rfl := complete_eq_next h
    exact .inr ⟨rfl, ⟨rfl, rfl, rfl, rfl⟩, rfl⟩

/-! ### The completed block, field by field -/

section CompletedBlock

variable (b : Block) (din : BitVec 64) (i : Instr)

@[simp] theorem completedBlock_slots : (completedBlock b din i).slots = completedSlots b din i := by
  cases i <;> simp only [completedBlock]

@[simp] theorem completedBlock_err : (completedBlock b din i).err = b.err := by
  cases i <;> simp only [completedBlock]

variable {i}

theorem completedBlock_of_ne_new (h : ∀ ws r, i ≠ .new ws r) :
    completedBlock b din i = { b with slots := completedSlots b din i } := by
  cases i with
  | new ws r => exact absurd rfl (h ws r)
  | _ => simp only [completedBlock]

theorem completedBlock_sameControl (h : ∀ ws r, i ≠ .new ws r) : b.sameControl (completedBlock b din i) := by
  rw [completedBlock_of_ne_new b din h]
  exact ⟨rfl, rfl, rfl, rfl⟩

variable {b din}

theorem completedBlock_v (h : b.v = true) : (completedBlock b din i).v = true := by
  cases i with
  | new ws r => rfl
  | _ => simpa only [completedBlock] using h

end CompletedBlock

/-! ### Injection in closed form -/

section Injection

variable {w : Width} (ic : InitConstants w)

/-- Injection on the slots, slot by slot. -/
theorem injectSlots_eq (r d : BitVec 8) (a : BitVec 10) (S : Slots) :
    injectSlots w ic r d a S =
      #v[toContainer ic.c0, S[1], S[2], toContainer ic.c3, S[4], S[5], S[6], S[7], toContainer ic.c8,
        toContainer ic.c9, toContainer ic.c10, toContainer ic.c11, toContainer ic.c12, toContainer ic.c13,
        toContainer (xorWord ic.c14 (paramAsWord w r.toNat d.toNat a.toNat)), toContainer ic.c15] := by
  refine Vector.ext fun k hk => ?_
  interval_cases k <;> simp [injectSlots, constantEntries, readSlot]

/-- Injection on words, word by word. -/
theorem injectWords_eq (r d a : Nat) (key : Vector (Word w) 4) (nonce : Vector (Word w) 2) :
    injectWords ic r d a key nonce =
      #v[ic.c0, nonce[0], nonce[1], ic.c3, key[0], key[1], key[2], key[3], ic.c8, ic.c9, ic.c10, ic.c11, ic.c12,
        ic.c13, xorWord ic.c14 (paramAsWord w r d a), ic.c15] := by
  refine Vector.ext fun k hk => ?_
  interval_cases k <;> simp [injectWords, constantEntries]

end Injection

/-! ### The width invariant -/

section Fits

variable {w : Width} {S : Slots}

theorem SlotsFit.foldl_write (h : SlotsFit w S) (l : List (SlotIx × Word w)) :
    SlotsFit w (l.foldl (fun S e => writeSlot S e.1 e.2) S) := by
  induction l generalizing S with
  | nil => exact h
  | cons e l ih => exact ih (h.write e.1 e.2)

theorem SlotsFit.inject (h : SlotsFit w S) (ic : InitConstants w) (r d : BitVec 8) (a : BitVec 10) :
    SlotsFit w (injectSlots w ic r d a S) := (h.foldl_write (constantEntries ic)).write 14 _

theorem SlotsFit.rounds (h : SlotsFit w S) (n : Nat) : SlotsFit w ((roundSlots w)^[n] S) :=
  Function.Iterate.rec (SlotsFit w) h (fun S _ => .writeAll (roundWords (readAll w S))) n

theorem completedSlots_fit {b : Block} (h : SlotsFit b.ws b.slots) (din : BitVec 64) (i : Instr) :
    SlotsFit b.ws (completedSlots b din i) := by
  cases i with
  | new ws r => exact .zero
  | rds sa => exact h
  | rdst => exact h
  | g ga gb gc gd => exact (((h.write ga _).write gb _).write gc _).write gd _
  | f => exact .writeAll _
  | inj d a => exact h.inject _ _ _ _
  | init d a => exact SlotsFit.rounds (h.inject _ _ _ _) _
  | _ => exact h.write _ _

/-- A completed command keeps the words of the State within its width. -/
theorem completedBlock_fitsWidth {b : Block} (h : b.fitsWidth) (din : BitVec 64) (i : Instr) :
    (completedBlock b din i).fitsWidth := by
  by_cases hnew : ∃ ws r, i = .new ws r
  · obtain ⟨ws, r, rfl⟩ := hnew
    exact fun _ => SlotsFit.zero
  · rw [completedBlock_of_ne_new b din fun ws r e => hnew ⟨ws, r, e⟩]
    exact fun hv => completedSlots_fit (h hv) din i

end Fits

/-! ### The slots a command writes and reads -/

theorem mem_allSlots : ∀ j : SlotIx, j ∈ [0, 1, 2, 3, 4, 5, 6, 7, 8, 9, 10, 11, 12, 13, 14, 15] := by decide

/-- Injection keeps the key and nonce slots. -/
theorem getElem_injectSlots_of_kept {w : Width} (ic : InitConstants w) (r d : BitVec 8) (a : BitVec 10) (S : Slots) :
    ∀ j ∈ ([1, 2, 4, 5, 6, 7] : List SlotIx), (injectSlots w ic r d a S)[j] = S[j] := by
  rw [injectSlots_eq]
  simp

/-- The slots that injection does not write are the key and nonce slots. -/
theorem mem_kept_of_notMem_injected :
    ∀ j : SlotIx, j ∉ [0, 3, 8, 9, 10, 11, 12, 13, 14, 15] → j ∈ [1, 2, 4, 5, 6, 7] := by decide

/-- A completed command leaves every slot it does not write. -/
theorem completedSlots_of_notMem (b : Block) (din : BitVec 64) (i : Instr) {j : SlotIx} (h : j ∉ slotsWritten i) :
    (completedSlots b din i)[j] = b.slots[j] := by
  cases i with
  | new ws r => exact absurd (mem_allSlots j) h
  | rds sa => rfl
  | rdst => rfl
  | g ga gb gc gd =>
    simp only [slotsWritten, List.mem_cons, List.not_mem_nil, or_false, not_or] at h
    obtain ⟨ha, hb, hc, hd⟩ := h
    simp only [completedSlots, groupSlots, writeQuad, getElem_writeSlot_ne _ _ ha, getElem_writeSlot_ne _ _ hb,
      getElem_writeSlot_ne _ _ hc, getElem_writeSlot_ne _ _ hd]
  | f => exact absurd (mem_allSlots j) h
  | inj d a => exact getElem_injectSlots_of_kept _ _ _ _ _ j (mem_kept_of_notMem_injected j h)
  | init d a => exact absurd (mem_allSlots j) h
  | _ => exact getElem_writeSlot_ne _ _ (List.ne_of_not_mem_cons h)

section Reads

variable {w : Width} {S T : Slots} {j : SlotIx}

/-- After the same write, a slot is the same if it is the one written or was the same before. -/
theorem getElem_writeSlot_congr (i : SlotIx) (x : Word w) (h : j ≠ i → S[j] = T[j]) :
    (writeSlot S i x)[j] = (writeSlot T i x)[j] := by
  by_cases e : j = i
  · subst e; rw [getElem_writeSlot_self, getElem_writeSlot_self]
  · rw [getElem_writeSlot_ne _ _ e, getElem_writeSlot_ne _ _ e, h e]

theorem getElem_writeQuad_congr {ga gb gc gd : SlotIx} (q : Quad w) (hj : j ∈ [ga, gb, gc, gd]) :
    (writeQuad S ga gb gc gd q)[j] = (writeQuad T ga gb gc gd q)[j] := by
  refine getElem_writeSlot_congr _ _ fun hd => getElem_writeSlot_congr _ _ fun hc =>
    getElem_writeSlot_congr _ _ fun hb => getElem_writeSlot_congr _ _ fun ha => ?_
  simp [ha, hb, hc, hd] at hj

/-- Injection writes its slots without reading any. -/
theorem getElem_injectSlots_of_mem (ic : InitConstants w) (r d : BitVec 8) (a : BitVec 10) :
    ∀ j ∈ ([0, 3, 8, 9, 10, 11, 12, 13, 14, 15] : List SlotIx),
      (injectSlots w ic r d a S)[j] = (injectSlots w ic r d a T)[j] := by
  rw [injectSlots_eq, injectSlots_eq]
  simp

/-- Injection reads the key and nonce slots only. -/
theorem injectSlots_congr (ic : InitConstants w) (r d : BitVec 8) (a : BitVec 10)
    (h : ∀ j ∈ ([1, 2, 4, 5, 6, 7] : List SlotIx), S[j] = T[j]) :
    injectSlots w ic r d a S = injectSlots w ic r d a T := by
  simp only [List.forall_mem_cons, List.not_mem_nil, false_implies, implies_true, and_true] at h
  obtain ⟨h1, h2, h4, h5, h6, h7⟩ :
    S[1] = T[1] ∧ S[2] = T[2] ∧ S[4] = T[4] ∧ S[5] = T[5] ∧ S[6] = T[6] ∧ S[7] = T[7] := h
  rw [injectSlots_eq, injectSlots_eq, h1, h2, h4, h5, h6, h7]

theorem readSlot_congr (h : S[j] = T[j]) : readSlot w S j = readSlot w T j := congrArg (toWord w) h

end Reads

/-- What a completed command writes depends on the slots it reads only. -/
theorem completedSlots_congr {b : Block} {other : Slots} (din : BitVec 64) (i : Instr)
    (h : ∀ j ∈ slotsRead i, other[j] = b.slots[j]) :
    ∀ j ∈ slotsWritten i,
      (completedSlots { b with slots := other } din i)[j] = (completedSlots b din i)[j] := by
  have same : ∀ k ∈ slotsRead i, readSlot b.ws other k = readSlot b.ws b.slots k := fun k hk => readSlot_congr (h k hk)
  intro j hj
  cases i with
  | new ws r => rfl
  | rds sa => cases hj
  | rdst => cases hj
  | g ga gb gc gd =>
    simp only [slotsRead, List.forall_mem_cons, List.not_mem_nil, false_implies, implies_true, and_true] at same
    obtain ⟨ha, hb, hc, hd⟩ := same
    simp only [completedSlots, groupSlots, readQuad, ha, hb, hc, hd]
    exact getElem_writeQuad_congr _ hj
  | f =>
    obtain rfl : other = b.slots := slots_ext fun k => h k (mem_allSlots k)
    rfl
  | inj d a => exact getElem_injectSlots_of_mem _ _ _ _ j hj
  | init d a => simp only [completedSlots, injectSlots_congr _ _ _ _ h]
  | _ =>
    simp only [slotsRead, slotsWritten, List.forall_mem_cons, List.mem_singleton] at same hj
    subst hj
    simp only [completedSlots, adxSlots, xrlSlots, getElem_writeSlot_self, same]

/-! ### Commands: frame, dependence, and no effect of `ERR` -/

/-- `ERR` has no part in a command's fault. -/
theorem faultOf_err (s : State) (e : Option FaultCode) (i : Instr) :
    faultOf { s with block := { s.block with err := e } } i = faultOf s i := by cases i <;> rfl

theorem completedSlots_err (b : Block) (e : Option FaultCode) (din : BitVec 64) (i : Instr) :
    completedSlots { b with err := e } din i = completedSlots b din i := by cases i <;> rfl

/-- `ERR` is passed through by a completed command. -/
theorem completedBlock_withErr (b : Block) (e : Option FaultCode) (din : BitVec 64) (i : Instr) :
    completedBlock { b with err := e } din i = { completedBlock b din i with err := e } := by
  cases i <;> simp only [completedBlock, completedSlots_err]

/-- Only RDST shows `ERR`. -/
theorem dataOut_withErr {b : Block} {i : Instr} (e : Option FaultCode) (h : i ≠ .rdst) :
    dataOut { b with err := e } i = dataOut b i := by
  cases i with
  | rdst => exact absurd rfl h
  | _ => rfl

/-- Settles O23: the fault, the block but for `ERR`, and the data-out but for RDST are computed without `ERR`. -/
theorem errDoesNotAffectExecution : Obligations.ErrDoesNotAffectExecution := by
  intro i s t e h
  obtain ⟨c, hf, ⟨hresp, -⟩, hblock⟩ | ⟨hf, ⟨hresp, -⟩, hblock⟩ := exec_next_cases h
  · refine ⟨_, exec_of_fault ((faultOf_err s e i).trans hf), ?_⟩
    rw [hblock, hresp]
    exact ⟨rfl, rfl, rfl, rfl, fun _ => rfl⟩
  · refine ⟨_, exec_completes ((faultOf_err s e i).trans hf), ?_⟩
    simp only [State.respond_block, State.respond_responses, completedBlock_withErr, hblock, hresp, true_and]
    exact fun hi => by rw [dataOut_withErr e hi]

/-- Settles O24: a fault changes `ERR` only, and a completed command its slots and, if it is NEW, the control state. -/
theorem commandsChangeOnlyTheSlotsTheyWrite : Obligations.CommandsChangeOnlyTheSlotsTheyWrite := by
  intro i s t h
  obtain ⟨c, -, hans, hblock⟩ | ⟨-, hans, hblock⟩ := exec_next_cases h
  · rw [hblock]
    refine ⟨fun _ _ => rfl, fun _ => ⟨rfl, rfl, rfl⟩, ?_, _, hans⟩
    cases herr : s.block.err with
    | none => exact .inr ⟨rfl, nofun, rfl⟩
    | some first => exact .inl rfl
  · rw [hblock]
    refine ⟨fun j hj => ?_, fun hnew => ?_, .inl (completedBlock_err ..), _, hans⟩
    · rw [completedBlock_slots]; exact completedSlots_of_notMem _ _ _ hj
    · rw [completedBlock_of_ne_new _ _ hnew]; exact ⟨rfl, rfl, rfl⟩

/-- The slots have no part in a command's fault. -/
theorem faultOf_slots (s : State) (S : Slots) (i : Instr) : faultOf (s.withSlots S) i = faultOf s i := by
  cases i <;> rfl

theorem completedBlock_withSlots (b : Block) (S : Slots) (din : BitVec 64) (i : Instr) :
    completedBlock { b with slots := S } din i =
      { completedBlock b din i with slots := completedSlots { b with slots := S } din i } := by
  cases i <;> simp only [completedBlock]

/-- RDS shows the slot it reads, and no other command shows a slot. -/
theorem dataOut_congr {b : Block} {other : Slots} {i : Instr} (h : ∀ j ∈ slotsRead i, other[j] = b.slots[j]) :
    dataOut { b with slots := other } i = dataOut b i := by
  cases i with
  | rds sa => exact congrArg toContainer (readSlot_congr (h sa (List.mem_singleton_self sa)))
  | _ => rfl

/-- Settles O25: the fault is computed without the slots, and the words written and answered from the slots read. -/
theorem commandsDependOnlyOnTheSlotsTheyRead : Obligations.CommandsDependOnlyOnTheSlotsTheyRead := by
  intro i s t other hread h
  obtain ⟨c, hf, ⟨hresp, -⟩, hblock⟩ | ⟨hf, ⟨hresp, -⟩, hblock⟩ := exec_next_cases h
  · refine ⟨_, exec_of_fault ((faultOf_slots s other i).trans hf), ?_⟩
    rw [hblock, hresp]
    refine ⟨rfl, ⟨rfl, rfl, rfl, rfl⟩, fun hok => ?_⟩
    simp [code_ne_zero c] at hok
  · refine ⟨_, exec_completes ((faultOf_slots s other i).trans hf), ?_⟩
    rw [hblock, hresp]
    simp only [State.respond_block, State.respond_responses, completedBlock_withSlots, dataOut_congr hread]
    refine ⟨trivial, ⟨rfl, rfl, rfl, rfl⟩, fun _ j hj => ?_⟩
    rw [completedBlock_slots]
    exact completedSlots_congr _ _ hread j hj

/-! ### Steps -/

/-- What the next state of a step can be: the same state, the state after a reset, or a state in which a command was
answered, with a fault taken or the command completed. -/
theorem step_next_cases {s t : State} (h : step s = .next t) :
    (s.pending = [] ∧ t = s) ∨
    (∃ rest, s.pending = .reset :: rest ∧ t = applyReset { s with pending := rest }) ∨
    (∃ cw din rest, s.pending = .command cw din :: rest ∧ t.pending = rest ∧ t.resets = s.resets ∧
      ((∃ c, t.responses = s.responses ++ [.faulted c] ∧
          t.block = { s.block with err := stickyErr s.block.err c }) ∨
        (∃ i dout, decode cw = .ok i ∧ t.responses = s.responses ++ [⟨0#3, dout⟩] ∧
          t.block = completedBlock s.block din i))) := by
  obtain ⟨hp, e⟩ | ⟨rest, hp, e⟩ | ⟨cw, din, rest, hp, ⟨i, hd, e⟩ | ⟨_, -, e⟩⟩ := step_cases s
  · exact .inl ⟨hp, (Host.Outcome.next.inj (e.symm.trans h)).symm⟩
  · exact .inr (.inl ⟨rest, hp, (Host.Outcome.next.inj (e.symm.trans h)).symm⟩)
  · refine .inr (.inr ⟨cw, din, rest, hp, ?_⟩)
    obtain ⟨c, -, ⟨hresp, hpend, -, hres⟩, hblock⟩ | ⟨-, ⟨hresp, hpend, -, hres⟩, hblock⟩ :=
      exec_next_cases (e.symm.trans h)
    · exact ⟨hpend, hres, .inl ⟨c, hresp, hblock⟩⟩
    · exact ⟨hpend, hres, .inr ⟨i, _, hd, hresp, hblock⟩⟩
  · obtain rfl := raiseFault_eq_next (e.symm.trans h)
    exact .inr (.inr ⟨cw, din, rest, hp, rfl, rfl, .inl ⟨_, rfl, rfl⟩⟩)

/-- Settles O4: a reset clears `V`, a fault keeps the slots, and a completed command writes words in containers. -/
theorem stepKeepsWordsWithinWidth : Obligations.StepKeepsWordsWithinWidth := by
  intro s t hfit h
  obtain ⟨-, rfl⟩ | ⟨rest, -, rfl⟩ | ⟨cw, din, rest, -, -, -, ⟨c, -, hblock⟩ | ⟨i, dout, -, -, hblock⟩⟩ :=
    step_next_cases h
  · exact hfit
  · exact fun hv => absurd hv (by simp)
  · rw [hblock]; exact hfit
  · rw [hblock]; exact completedBlock_fitsWidth hfit din i

/-- Settles O3: no State exists at reset. -/
theorem wordsFitTheWidthAtReset : Obligations.WordsFitTheWidthAtReset := nofun

/-- Settles O5: the one response a step can add is a fault's code with no data, or has status 0. -/
theorem stepKeepsResponsesLegal : Obligations.StepKeepsResponsesLegal := by
  intro s t hold h
  obtain ⟨-, rfl⟩ | ⟨rest, -, rfl⟩ | ⟨cw, din, rest, -, -, -, ⟨c, hresp, -⟩ | ⟨i, dout, -, hresp, -⟩⟩ :=
    step_next_cases h
  · exact hold
  · exact hold
  · rw [hresp, List.forall_mem_append, List.forall_mem_singleton]
    exact ⟨hold, code_ne_seven c, fun _ => rfl⟩
  · rw [hresp, List.forall_mem_append, List.forall_mem_singleton]
    exact ⟨hold, (by decide : (0#3 : BitVec 3) ≠ 7#3), fun h => absurd rfl h⟩

/-- Settles O12: every case of a step gives a next state, and both answers to a command add one response. -/
theorem everyStepAnswersEachCommandOnce : Obligations.EveryStepAnswersEachCommandOnce := by
  refine ⟨step_answers_next, fun s t cw din rest hp h => ?_⟩
  obtain ⟨hp', -⟩ | ⟨_, hp', -⟩ | ⟨_, _, _, hp', hrest, hres, hanswer⟩ := step_next_cases h
  · cases hp.symm.trans hp'
  · cases hp.symm.trans hp'
  · cases hp.symm.trans hp'
    obtain ⟨c, hresp, -⟩ | ⟨i, dout, -, hresp, -⟩ := hanswer
    · exact ⟨_, hresp, hrest, hres⟩
    · exact ⟨_, hresp, hrest, hres⟩

/-- Settles O13: faults and completed commands other than NEW keep `W`, `R` and `V`. -/
theorem controlIsWrittenOnlyByNewAndReset : Obligations.ControlIsWrittenOnlyByNewAndReset := by
  intro s t h
  obtain ⟨-, rfl⟩ | ⟨rest, hp, rfl⟩ | ⟨cw, din, rest, hp, -, -, ⟨c, -, hblock⟩ | ⟨i, dout, hd, -, hblock⟩⟩ :=
    step_next_cases h
  · exact .inl ⟨rfl, rfl, rfl⟩
  · exact .inr (.inl ⟨rest, hp, rfl, rfl, rfl⟩)
  · rw [hblock]; exact .inl ⟨rfl, rfl, rfl⟩
  · by_cases hnew : ∃ ws r, i = .new ws r
    · obtain ⟨ws, r, rfl⟩ := hnew
      rw [hblock]
      exact .inr (.inr ⟨cw, din, rest, ws, r, hp, hd, rfl, rfl, rfl⟩)
    · rw [hblock, completedBlock_of_ne_new _ _ fun ws r e => hnew ⟨ws, r, e⟩]
      exact .inl ⟨rfl, rfl, rfl⟩

/-- Settles O1: the state after a reset, by the laws of `applyReset`. -/
theorem resetEventPutsControlToReset : Obligations.ResetEventPutsControlToReset := fun _ _ h =>
  ⟨_, step_reset h, rfl, rfl, rfl, rfl, (by decide : stat Block.reset = 0#64), rfl, rfl⟩

/-- Settles O11: the step's laws for a legal command and for nothing pending. -/
theorem stepExecutesTheDecodedCommand : Obligations.StepExecutesTheDecodedCommand :=
  ⟨fun _ _ _ _ _ hp hd => step_legal hp hd, fun _ hp => step_idle hp⟩

/-! ### Runs without a reset -/

/-- A reflexive and transitive relation that every step without a reset keeps to holds from the start of a run without
a reset to its end. -/
theorem runSteps_induction {R : State → State → Prop} (refl : ∀ s, R s s) (trans : ∀ {s t u}, R s t → R t u → R s u)
    (hstep : ∀ {s t}, s.noResetPending → step s = .next t → R s t) {n : Nat} {s t : State} (hs : s.noResetPending)
    (h : runSteps n s = .next t) : R s t := by
  induction n generalizing s with
  | zero => obtain rfl := Host.Outcome.next.inj h; exact refl s
  | succ n ih =>
    obtain ⟨u, hu⟩ := step_answers_next s
    rw [runSteps_of_next hu] at h
    have hpending : u.noResetPending := by
      obtain ⟨-, rfl⟩ | ⟨rest, hp, rfl⟩ | ⟨cw, din, rest, hp, hrest, -⟩ := step_next_cases hu
      · exact hs
      · exact fun hmem => hs (hp ▸ List.mem_cons_of_mem _ hmem)
      · exact fun hmem => hs (hp ▸ List.mem_cons_of_mem _ (hrest ▸ hmem))
    exact trans (hstep hs hu) (ih hpending h)

/-- The first fault code and `V = 1` stay. -/
def KeepsErrAndValid (s t : State) : Prop :=
  (∀ c, s.block.err = some c → t.block.err = some c) ∧ (s.block.v = true → t.block.v = true)

theorem step_keepsErrAndValid {s t : State} (hs : s.noResetPending) (h : step s = .next t) : KeepsErrAndValid s t := by
  obtain ⟨-, rfl⟩ | ⟨rest, hp, -⟩ | ⟨cw, din, rest, -, -, -, ⟨c, -, hblock⟩ | ⟨i, dout, -, -, hblock⟩⟩ :=
    step_next_cases h
  · exact ⟨fun _ => id, id⟩
  · exact absurd (hp ▸ List.mem_cons_self) hs
  · rw [KeepsErrAndValid, hblock]
    exact ⟨fun first hfirst => by rw [hfirst, stickyErr_some], id⟩
  · rw [KeepsErrAndValid, hblock, completedBlock_err]
    exact ⟨fun _ => id, completedBlock_v⟩

/-- Settles O14: every step without a reset keeps both. -/
theorem onlyResetClearsErrAndValid : Obligations.OnlyResetClearsErrAndValid := fun _ _ _ hs h =>
  runSteps_induction (R := KeepsErrAndValid) (fun _ => ⟨fun _ => id, id⟩)
    (fun st tu => ⟨fun c hc => tu.1 c (st.1 c hc), tu.2 ∘ st.2⟩) step_keepsErrAndValid hs h

/-- Responses are added, and `ERR` stays 0 exactly when all of these have status 0. -/
def AnswersShowErr (s t : State) : Prop :=
  ∃ answers, t.responses = s.responses ++ answers ∧
    (t.block.err = none ↔ s.block.err = none ∧ ∀ r ∈ answers, r.st = 0#3)

theorem AnswersShowErr.refl (s : State) : AnswersShowErr s s := ⟨[], by simp, by simp⟩

theorem AnswersShowErr.trans {s t u : State} (hst : AnswersShowErr s t) (htu : AnswersShowErr t u) :
    AnswersShowErr s u := by
  obtain ⟨first, hfirst, herr⟩ := hst
  obtain ⟨second, hsecond, herr'⟩ := htu
  refine ⟨first ++ second, by rw [hsecond, hfirst, List.append_assoc], ?_⟩
  rw [herr', herr, List.forall_mem_append, and_assoc]

theorem stickyErr_ne_none (old : Option FaultCode) (c : FaultCode) : stickyErr old c ≠ none := by
  cases old <;> nofun

theorem step_answersShowErr {s t : State} (hs : s.noResetPending) (h : step s = .next t) : AnswersShowErr s t := by
  obtain ⟨-, rfl⟩ | ⟨rest, hp, -⟩ | ⟨cw, din, rest, -, -, -, ⟨c, hresp, hblock⟩ | ⟨i, dout, -, hresp, hblock⟩⟩ :=
    step_next_cases h
  · exact .refl _
  · exact absurd (hp ▸ List.mem_cons_self) hs
  · refine ⟨_, hresp, ?_⟩
    simp [hblock, stickyErr_ne_none, code_ne_zero]
  · refine ⟨_, hresp, ?_⟩
    simp [hblock]

/-- Settles O22: every step without a reset adds responses that show whether `ERR` stayed 0. -/
theorem errIsZeroExactlyWhenEveryResponseIsOk : Obligations.ErrIsZeroExactlyWhenEveryResponseIsOk := by
  intro n s t hs herr h
  obtain ⟨answers, hresp, hiff⟩ := runSteps_induction AnswersShowErr.refl .trans step_answersShowErr hs h
  exact ⟨answers, hresp, by rw [hiff, and_iff_right herr]⟩

end Sys2Proof.Machine

/-! PROOFS. Host access (44_host_access.md), the fields of `STAT` and of the parameter word: numbers placed above one
another in a word are a sum. -/

namespace Sys2Proof.Machine

/-! ### Numbers placed above one another -/

/-- Above `n` bits that hold `x`, placing `y` adds `y * 2 ^ n`. -/
theorem or_shiftLeft_eq_add {x n : Nat} (y : Nat) (h : x < 2 ^ n) : x ||| y <<< n = x + y * 2 ^ n := by
  rw [Nat.or_comm, ← Nat.shiftLeft_add_eq_or_of_lt h, Nat.shiftLeft_eq, Nat.add_comm]

/-- The parameter word is the sum of its fields at their places. -/
theorem paramWord_eq {r d a : Nat} (w : Width) (hd : d ≤ 255) (ha : a ≤ 1023) :
    paramWord r d w.bits a = r * 2 ^ 26 + d * 2 ^ 18 + w.bits * 2 ^ 10 + a := by
  have hw : w.bits < 2 ^ 8 := by cases w <;> decide
  rw [paramWord, Nat.or_comm _ a, Nat.or_comm _ (w.bits <<< 10), Nat.or_comm (r <<< 26), ← Nat.or_assoc,
    ← Nat.or_assoc, or_shiftLeft_eq_add w.bits (by omega), or_shiftLeft_eq_add d (by omega),
    or_shiftLeft_eq_add r (by omega)]
  omega

/-- Settles O46: each field is read back from the sum. -/
theorem parameterWordFields : Obligations.ParameterWordFields := by
  intro r d a w hr hd ha
  have hw : w.bits < 2 ^ 8 := by cases w <;> decide
  rw [paramWord_eq w hd ha]
  refine ⟨rfl, ?_, ?_, ?_, ?_, ?_⟩ <;> omega

/-- Settles O47: injection word by word, with the parameter word as a sum. -/
theorem injectClosedForm : Obligations.InjectClosedForm := by
  intro w ic r d a key nonce _ hd ha
  rw [injectWords_eq, xorWord, paramAsWord, paramWord_eq w hd ha]

/-- A field of `STAT` keeps its number when it is placed. -/
theorem toNat_setWidth_shiftLeft {k : Nat} (x : BitVec k) (n : Nat) (h : k + n ≤ 64) :
    (x.setWidth 64 <<< n).toNat = x.toNat <<< n := by
  have fits : x.toNat <<< n < 2 ^ 64 := by
    rw [Nat.shiftLeft_eq]
    calc x.toNat * 2 ^ n < 2 ^ k * 2 ^ n := Nat.mul_lt_mul_of_pos_right x.isLt (Nat.two_pow_pos n)
      _ = 2 ^ (k + n) := (Nat.pow_add 2 k n).symm
      _ ≤ 2 ^ 64 := Nat.pow_le_pow_right (by decide) h
  rw [BitVec.toNat_shiftLeft, BitVec.toNat_setWidth_of_le (by omega), Nat.mod_eq_of_lt fits]

/-- `STAT` is the sum of its fields at their places. -/
theorem toNat_stat (b : Block) :
    (stat b).toNat = b.r.toNat + 2 ^ 8 * (wsBit b.ws).toNat + 2 ^ 9 * (vBit b.v).toNat +
      2 ^ 10 * (errCode b.err).toNat := by
  have hr := b.r.isLt
  have hws := (wsBit b.ws).isLt
  have hv := (vBit b.v).isLt
  rw [stat, BitVec.toNat_or, BitVec.toNat_or, BitVec.toNat_or, BitVec.toNat_setWidth_of_le (by decide),
    toNat_setWidth_shiftLeft _ 8 (by decide), toNat_setWidth_shiftLeft _ 9 (by decide),
    toNat_setWidth_shiftLeft _ 10 (by decide), or_shiftLeft_eq_add (wsBit b.ws).toNat (by omega),
    or_shiftLeft_eq_add (vBit b.v).toNat (by omega), or_shiftLeft_eq_add (errCode b.err).toNat (by omega)]
  omega

theorem toNat_wsBit (w : Width) : (wsBit w).toNat = if w = .w64 then 1 else 0 := by cases w <;> rfl

theorem toNat_vBit (v : Bool) : (vBit v).toNat = if v then 1 else 0 := by cases v <;> rfl

/-! ### The commands -/

/-- Settles O29: RDST completes in every state and its data-out is `STAT`. -/
theorem rdstAnswersTheStatusWord : Obligations.RdstAnswersTheStatusWord := by
  intro s
  obtain ⟨t, ht, hans, hblock⟩ := exec_completed_spec (i := .rdst) (s := s) rfl
  refine ⟨t, _, ht, hans, hblock, rfl, ?_⟩
  rw [← toNat_wsBit, ← toNat_vBit]
  exact toNat_stat s.block

/-- Settles O26: NEW completes in every state. -/
theorem newCreatesAZeroedState : Obligations.NewCreatesAZeroedState := by
  intro ws r s
  obtain ⟨t, ht, hans, hblock⟩ := exec_completed_spec (i := .new ws r) (s := s) rfl
  refine ⟨t, ht, hans, ?_⟩
  rw [hblock]
  exact ⟨fun j => by simp [completedSlots], rfl, rfl, rfl, rfl⟩

theorem tooWide_eq_false {w : Width} {din : BitVec 64} : tooWide w din = false ↔ din.toNat < 2 ^ w.bits := by
  simp [tooWide]

/-- LDS of a value that fits, given a State. -/
theorem execLds_accepted {sd : SlotIx} {s : State} (hv : s.block.v = true) (hfit : s.din.toNat < 2 ^ s.block.ws.bits) :
    exec (.lds sd) s = writeResult sd (toWord s.block.ws s.din) s := by
  rw [exec, execLds, needState_of_valid hv, tooWide_eq_false.mpr hfit, refuseIf_false]
  rfl

/-- Settles O27: the value fits, so it is the container of its word. -/
theorem ldsWritesTheDataInValue : Obligations.LdsWritesTheDataInValue := by
  intro sd s hv hfit
  obtain ⟨t, ht, hans, hslot, hbut, hcontrol⟩ := writeResult_spec s sd (toWord s.block.ws s.din)
  rw [toContainer_toWord hfit] at hslot
  exact ⟨t, (execLds_accepted hv hfit).trans ht, hans, hslot, hbut, hcontrol⟩

/-- Settles O28: the data-out is the container of the slot's word, and that is the slot's own container if it fits. -/
theorem rdsAnswersTheSlot : Obligations.RdsAnswersTheSlot := by
  intro sa s hv
  refine ⟨_, _, needState_of_valid hv, ⟨rfl, rfl, rfl, rfl⟩, rfl, rfl, ?_, fun hfit => ?_⟩
  · rw [toNat_toContainer, readSlot, toNat_toWord]
  · exact toContainer_toWord (hfit hv sa)

end Sys2Proof.Machine

/-! PROOFS. The six primitives (40_arx_primitives.md): what each word function does, bit by bit or as a number, and the
commands, which write its value for their sources. -/

namespace Sys2Proof.Machine

/-! ### The word functions -/

/-- A carry term stands one place above the bits it comes from. -/
theorem getLsbD_shiftLeft_one {n : Nat} (x : BitVec n) {k : Nat} (hk : k + 1 < n) :
    (x <<< 1).getLsbD (k + 1) = x.getLsbD k := by
  rw [BitVec.getLsbD_shiftLeft, decide_eq_true hk, Nat.add_sub_cancel]
  simp

section Words

variable {w : Width} (a b : Word w)

theorem getLsbD_xorWord (k : Nat) : (xorWord a b).getLsbD k = (a.getLsbD k ^^ b.getLsbD k) := BitVec.getLsbD_xor

theorem getLsbD_andWord (k : Nat) : (andWord a b).getLsbD k = (a.getLsbD k && b.getLsbD k) := BitVec.getLsbD_and

theorem toNat_shlWord (n : Nat) : (shlWord a n).toNat = a.toNat * 2 ^ n % 2 ^ w.bits := by
  rw [shlWord, BitVec.toNat_shiftLeft, Nat.shiftLeft_eq]

/-- ADX's lowest bit has no carry term. -/
theorem getLsbD_adxWord_zero : (adxWord a b).getLsbD 0 = (a.getLsbD 0 ^^ b.getLsbD 0) := by
  simp [adxWord, shlWord, getLsbD_xorWord]

/-- Every other bit of ADX has the carry term of the bit below it. -/
theorem getLsbD_adxWord_succ (k : Nat) :
    (adxWord a b).getLsbD (k + 1) = (decide (k + 1 < w.bits) &&
      ((a.getLsbD (k + 1) ^^ b.getLsbD (k + 1)) ^^ (a.getLsbD k && b.getLsbD k))) := by
  by_cases hk : k + 1 < w.bits
  · rw [adxWord, getLsbD_xorWord, getLsbD_xorWord, shlWord, getLsbD_shiftLeft_one _ hk, getLsbD_andWord,
      decide_eq_true hk, Bool.true_and]
  · rw [BitVec.getLsbD_of_ge _ _ (Nat.not_lt.mp hk), decide_eq_false hk, Bool.false_and]

theorem getLsbD_xrlWord {v : Nat} (hv : v < w.bits) (k : Nat) :
    (xrlWord a b v).getLsbD k = (decide (k < w.bits) &&
      (a.getLsbD ((k + v) % w.bits) ^^ b.getLsbD ((k + v) % w.bits))) := by
  rw [xrlWord, getLsbD_rorWord _ hv, getLsbD_xorWord]

end Words

/-! ### ADX and the sum (R111) -/

/-- A sum is the sum without carries and the carries, doubled. -/
theorem nat_add_eq_xor_add_and (m n : Nat) : m + n = (m ^^^ n) + 2 * (m &&& n) := by
  induction m using Nat.binaryRec generalizing n with
  | zero => simp
  | bit b m ih =>
    cases n using Nat.bitCasesOn with
    | bit c n =>
      rw [Nat.xor_bit, Nat.land_bit]
      have := ih n
      cases b <;> cases c <;> simp [Nat.bit_val] <;> omega

theorem add_eq_xor_add_and {n : Nat} (x y : BitVec n) : x + y = (x ^^^ y) + (x &&& y) <<< 1 := by
  apply BitVec.eq_of_toNat_eq
  rw [BitVec.toNat_add, BitVec.toNat_add, BitVec.toNat_shiftLeft, BitVec.toNat_xor, BitVec.toNat_and,
    nat_add_eq_xor_add_and, Nat.add_mod_mod, Nat.shiftLeft_eq, Nat.mul_comm 2, Nat.pow_one]

/-- The sum needs no carry exactly when no common bit stands below the top. -/
theorem xor_eq_add_iff {n : Nat} (x y : BitVec n) :
    x ^^^ y = x + y ↔ ∀ k, k + 1 < n → (x &&& y).getLsbD k = false := by
  have noCarry : x ^^^ y = x + y ↔ (x &&& y) <<< 1 = 0#n := by
    rw [add_eq_xor_add_and, left_eq_add]
    rfl
  rw [noCarry]
  refine ⟨fun h k hk => ?_, fun h => BitVec.eq_of_getLsbD_eq fun k hk => ?_⟩
  · rw [← getLsbD_shiftLeft_one _ hk, h, BitVec.getLsbD_zero]
  · cases k with
    | zero => simp
    | succ k => rw [getLsbD_shiftLeft_one _ hk, h k hk, BitVec.getLsbD_zero]

/-- Settles O38: the sum is `a ^ b` and the carry term, added; ADX is the two, XORed. -/
theorem adxIsTheSumWhenNoCarryTravels : Obligations.AdxIsTheSumWhenNoCarryTravels := by
  intro w a b
  rw [add_eq_xor_add_and a b]
  exact xor_eq_add_iff (a ^^^ b) ((a &&& b) <<< 1)

/-- Refutes O39: at width 32, `a = 0xC0000000` and `b = 0x40000000` have a common 1 bit at the top, and ADX and the sum
are both 0. -/
theorem not_adxIsTheSumExactlyWhenNoCommonBit : ¬ Obligations.AdxIsTheSumExactlyWhenNoCommonBit := by
  intro h
  have sum : adxWord (w := .w32) 0xC0000000#32 0x40000000#32 = 0xC0000000#32 + 0x40000000#32 := by decide
  exact absurd ((h .w32 0xC0000000#32 0x40000000#32).mp sum) (by decide)

/-! ### The commands -/

section Sources

variable {s : State} (hv : s.block.v = true) (hfit : s.block.fitsWidth) (i : SlotIx)
include hv hfit

theorem getLsbD_source (k : Nat) : (source s i).getLsbD k = (s.block.slots[i]).getLsbD k := getLsbD_toWord (hfit hv i) k

theorem toNat_source : (source s i).toNat = (s.block.slots[i]).toNat := by
  rw [source, readSlot, toNat_toWord, Nat.mod_eq_of_lt (hfit hv i)]

end Sources

/-- Settles O31: one result written, its bits those of the sources before the write. -/
theorem xorCommandWritesTheBitwiseXor : Obligations.XorCommandWritesTheBitwiseXor := by
  intro sd sa sb s hv hfit
  obtain ⟨t, ht, hans, hslot, hbut, hcontrol⟩ := writeResult_spec s sd (xorWord (source s sa) (source s sb))
  refine ⟨t, (needState_of_valid hv).trans ht, hans, fun k => ?_, hbut, hcontrol⟩
  rw [hslot, getLsbD_toContainer, getLsbD_xorWord, getLsbD_source hv hfit, getLsbD_source hv hfit]

/-- Settles O32: one result written, its bits those of the sources before the write. -/
theorem andCommandWritesTheBitwiseAnd : Obligations.AndCommandWritesTheBitwiseAnd := by
  intro sd sa sb s hv hfit
  obtain ⟨t, ht, hans, hslot, hbut, hcontrol⟩ := writeResult_spec s sd (andWord (source s sa) (source s sb))
  refine ⟨t, (needState_of_valid hv).trans ht, hans, fun k => ?_, hbut, hcontrol⟩
  rw [hslot, getLsbD_toContainer, getLsbD_andWord, getLsbD_source hv hfit, getLsbD_source hv hfit]

/-- Settles O35: one result written, with ADX's bits. -/
theorem adxCommandAddsOneCarryTerm : Obligations.AdxCommandAddsOneCarryTerm := by
  intro sd sa sb s hv hfit
  obtain ⟨t, ht, hans, hslot, hbut, hcontrol⟩ := writeResult_spec s sd (adxWord (source s sa) (source s sb))
  have bits : ∀ i k, (source s i).getLsbD k = (s.block.slots[i]).getLsbD k := getLsbD_source hv hfit
  refine ⟨t, (needState_of_valid hv).trans ht, hans, ?_, fun k => ?_, hbut, hcontrol⟩
  · rw [hslot, getLsbD_toContainer, getLsbD_adxWord_zero, bits, bits]
  · rw [hslot, getLsbD_toContainer, getLsbD_adxWord_succ, bits, bits, bits, bits]

/-- A command with an amount below the width, given a State, passes its check. -/
theorem needState_amount_accepted {s : State} {n : BitVec 6} {body : Answer} (hv : s.block.v = true)
    (hn : n.toNat < s.block.ws.bits) :
    needState s (refuseIf (amountTooBig s.block.ws n) .badAmount s body) = body := by
  rw [needState_of_valid hv, amountTooBig_eq_false.mpr hn, refuseIf_false]

/-- Settles O33: the amount is accepted, and the shift multiplies. -/
theorem shlCommandMultipliesByAPowerOfTwo : Obligations.ShlCommandMultipliesByAPowerOfTwo := by
  intro sd sa n s hv hfit hn
  obtain ⟨t, ht, hans, hslot, hbut, hcontrol⟩ := writeResult_spec s sd (shlWord (source s sa) n.toNat)
  refine ⟨t, (needState_amount_accepted hv hn).trans ht, hans, ?_, hbut, hcontrol⟩
  rw [hslot, toNat_toContainer, toNat_shlWord, toNat_source hv hfit]

/-- Settles O34: the amount is accepted, and the rotation moves the bits. -/
theorem rorCommandRotatesRight : Obligations.RorCommandRotatesRight := by
  intro sd sa n s hv hfit hn
  obtain ⟨t, ht, hans, hslot, hbut, hcontrol⟩ := writeResult_spec s sd (rorWord (source s sa) n.toNat)
  refine ⟨t, (needState_amount_accepted hv hn).trans ht, hans, fun k => ?_, hbut, hcontrol⟩
  rw [hslot, getLsbD_toContainer, getLsbD_rorWord _ hn, getLsbD_source hv hfit]

/-- Settles O36: the amount is accepted, and the rotation moves the bits of the exclusive-or. -/
theorem xrlCommandRotatesTheXor : Obligations.XrlCommandRotatesTheXor := by
  intro sd sa sb v s hv hfit hn
  obtain ⟨t, ht, hans, hslot, hbut, hcontrol⟩ :=
    writeResult_spec s sd (xrlWord (source s sa) (source s sb) v.toNat)
  refine ⟨t, (needState_amount_accepted hv hn).trans ht, hans, fun k => ?_, hbut, hcontrol⟩
  rw [hslot, getLsbD_toContainer, getLsbD_xrlWord _ _ hn, getLsbD_source hv hfit, getLsbD_source hv hfit]

end Sys2Proof.Machine

/-! PROOFS. G, F, INJ and INIT as commands (41_quarter_round_g.md, 42_round_f.md, 43_initializer.md): each completes,
and its slots are read back as the words of its function. -/

namespace Sys2Proof.Machine

variable {w : Width}

/-! ### G -/

/-- Settles O40: the four slots hold G's results, and the single-assignment form is G's own, name by name. -/
theorem gCommandComputesTheQuarterRound : Obligations.GCommandComputesTheQuarterRound := by
  intro ga gb gc gd s hv hn
  obtain ⟨ha, hb, hc, hd, kept⟩ := getElem_writeQuad s.block.slots
    (quarterRound (readQuad s.block.ws s.block.slots ga gb gc gd)) hn
  refine ⟨_, execG_accepted hv hn, ⟨rfl, rfl, rfl, rfl⟩, ?_, kept, ⟨rfl, rfl, rfl, rfl⟩⟩
  rintro r0 r1 r2 r3 a1 b1 c1 d1 a2 b2 c2 d2 hr rfl rfl rfl rfl rfl rfl rfl rfl
  have amounts : r0 = (rotationConstants s.block.ws)[0] ∧ r1 = (rotationConstants s.block.ws)[1] ∧
      r2 = (rotationConstants s.block.ws)[2] ∧ r3 = (rotationConstants s.block.ws)[3] := by
    generalize s.block.ws = w at hr
    cases w <;> cases hr <;> decide
  obtain ⟨rfl, rfl, rfl, rfl⟩ := amounts
  exact ⟨ha, hb, hc, hd⟩

/-! ### F -/

/-- Groups of a step with no slot in common. -/
theorem columns_pairwise_disjoint : columns.Pairwise fun k l => ∀ i ∈ k.slots, i ∉ l.slots := by decide

theorem diagonals_pairwise_disjoint : diagonals.Pairwise fun k l => ∀ i ∈ k.slots, i ∉ l.slots := by decide

/-- The four words that G leaves in a group of four different slots. -/
theorem Group.quad_applyGroup_self (s : Words w) {k : Group} (hk : k.slots.Nodup) :
    k.quad (applyGroup s k) = quarterRound (k.quad s) := by
  obtain ⟨ab, ac, ad, bc, bd, cd⟩ := pairwise_ne_of_nodup hk
  show (⟨(applyGroup s k)[k.a], (applyGroup s k)[k.b], (applyGroup s k)[k.c], (applyGroup s k)[k.d]⟩ : Quad w) = _
  simp only [getElem_applyGroup, if_true, if_false, ab.symm, ac.symm, ad.symm, bc.symm, bd.symm, cd.symm]

/-- A step of pairwise disjoint groups leaves a group outside it alone. -/
theorem Group.quad_foldl_of_disjoint {ks : List Group} {l : Group} (h : ∀ k ∈ ks, ∀ i ∈ l.slots, i ∉ k.slots)
    (s : Words w) : l.quad (ks.foldl applyGroup s) = l.quad s := by
  induction ks generalizing s with
  | nil => rfl
  | cons k ks ih =>
    obtain ⟨hk, hks⟩ := List.forall_mem_cons.mp h
    rw [List.foldl_cons, ih hks, Group.quad_applyGroup s hk]

/-- A step of pairwise disjoint groups puts each of them through G. -/
theorem Group.quad_foldl {ks : List Group} (hd : ks.Pairwise fun k l => ∀ i ∈ k.slots, i ∉ l.slots)
    (hn : ∀ k ∈ ks, k.slots.Nodup) (s : Words w) :
    ∀ k ∈ ks, k.quad (ks.foldl applyGroup s) = quarterRound (k.quad s) := by
  induction ks generalizing s with
  | nil => nofun
  | cons k ks ih =>
    obtain ⟨hk, hks⟩ := List.pairwise_cons.mp hd
    obtain ⟨nk, nks⟩ := List.forall_mem_cons.mp hn
    refine List.forall_mem_cons.mpr ⟨?_, fun l hl => ?_⟩
    · rw [List.foldl_cons, Group.quad_foldl_of_disjoint hk, Group.quad_applyGroup_self s nk]
    · rw [List.foldl_cons, ih hks nks _ l hl, Group.quad_applyGroup s fun i hi hik => hk l hl i hik hi]

theorem columns_quad (s : Words w) : ∀ k ∈ columns, k.quad (columns.foldl applyGroup s) = quarterRound (k.quad s) :=
  Group.quad_foldl columns_pairwise_disjoint (fun k hk => nodup_slots_of_round k (List.mem_append_left _ hk)) s

theorem diagonals_quad (s : Words w) :
    ∀ k ∈ diagonals, k.quad (diagonals.foldl applyGroup s) = quarterRound (k.quad s) :=
  Group.quad_foldl diagonals_pairwise_disjoint (fun k hk => nodup_slots_of_round k (List.mem_append_right _ hk)) s

theorem Group.quad_readAll (S : Slots) (k : Group) : k.quad (readAll w S) = readQuad w S k.a k.b k.c k.d := by
  simp [Group.quad, readQuad, readSlot]

/-- The containers of a group's words. -/
theorem getElem_writeAll_of_quad {s : Words w} {k : Group} {q : Quad w} (h : k.quad s = q) :
    (writeAll s)[k.a] = toContainer q.a ∧ (writeAll s)[k.b] = toContainer q.b ∧ (writeAll s)[k.c] = toContainer q.c ∧
      (writeAll s)[k.d] = toContainer q.d := by
  subst h
  simp [Group.quad]

/-- Settles O43: the middle matrix is the outcome of the columns; the slots are the containers of the outcome of the
diagonals. -/
theorem fCommandIsColumnsThenDiagonals : Obligations.FCommandIsColumnsThenDiagonals := by
  intro s hv
  have cols := columns_quad (readAll s.block.ws s.block.slots)
  obtain ⟨t, ht, hans, hblock⟩ := exec_completed_spec (i := .f) (faultOf_of_valid hv)
  have hslots : t.block.slots = writeAll (diagonals.foldl applyGroup
      (columns.foldl applyGroup (readAll s.block.ws s.block.slots))) := by
    rw [hblock, completedBlock_slots, ← List.foldl_append]
    rfl
  generalize columns.foldl applyGroup (readAll s.block.ws s.block.slots) = mid at cols hslots
  have diags : ∀ k ∈ diagonals, ∀ q, q = quarterRound (k.quad mid) → t.block.slots[k.a] = toContainer q.a ∧
      t.block.slots[k.b] = toContainer q.b ∧ t.block.slots[k.c] = toContainer q.c ∧
      t.block.slots[k.d] = toContainer q.d := by
    intro k hk q hq
    rw [hslots]
    exact getElem_writeAll_of_quad ((diagonals_quad mid k hk).trans hq.symm)
  simp only [Group.quad_readAll] at cols
  refine ⟨t, mid, ht, hans, fun j => ?_, fun j => ?_, hblock ▸ completedBlock_sameControl _ _ nofun⟩
  · fin_cases j
    · exact cols ⟨0, 4, 8, 12⟩ (by decide)
    · exact cols ⟨1, 5, 9, 13⟩ (by decide)
    · exact cols ⟨2, 6, 10, 14⟩ (by decide)
    · exact cols ⟨3, 7, 11, 15⟩ (by decide)
  · fin_cases j
    · exact diags ⟨0, 5, 10, 15⟩ (by decide)
    · exact diags ⟨1, 6, 11, 12⟩ (by decide)
    · exact diags ⟨2, 7, 8, 13⟩ (by decide)
    · exact diags ⟨3, 4, 9, 14⟩ (by decide)

/-! ### Injection -/

theorem roundsTooMany_eq_false {r : BitVec 8} : roundsTooMany r = false ↔ r.toNat ≤ 63 := by
  simp [roundsTooMany]; omega

/-- Given a State and at most 63 rounds, INJ and INIT pass their check. -/
theorem faultOf_inj_init {s : State} (hv : s.block.v = true) (hr : s.block.r.toNat ≤ 63) (d : BitVec 8)
    (a : BitVec 10) : faultOf s (.inj d a) = none ∧ faultOf s (.init d a) = none := by
  rw [faultOf_of_valid hv, faultOf_of_valid hv, operandFault, operandFault, roundsTooMany_eq_false.mpr hr]
  exact ⟨rfl, rfl⟩

/-- The words that injection leaves in the slots. -/
theorem readAll_injectSlots (ic : InitConstants w) (r d : BitVec 8) (a : BitVec 10) (S : Slots) :
    readAll w (injectSlots w ic r d a S) =
      injectWords ic r.toNat d.toNat a.toNat #v[readSlot w S 4, readSlot w S 5, readSlot w S 6, readSlot w S 7]
        #v[readSlot w S 1, readSlot w S 2] := by
  rw [injectSlots_eq, injectWords_eq]
  refine Vector.ext fun k hk => ?_
  rw [getElem_readAll]
  interval_cases k <;> simp [readSlot]

/-- Settles O48: INJ completes, and its slots are read as the injected words. -/
theorem injCommandInjects : Obligations.InjCommandInjects := by
  intro d a s hv hr
  obtain ⟨t, ht, hans, hblock⟩ := exec_completed_spec (faultOf_inj_init hv hr d a).1
  refine ⟨t, ht, hans, ?_, ?_, ?_⟩
  · rw [hblock]; exact readAll_injectSlots ..
  · rw [hblock]; exact fun j hj => completedSlots_of_notMem s.block s.din (.inj d a) hj
  · rw [hblock]; exact completedBlock_sameControl _ _ nofun

theorem injectSlots_injectSlots (ic : InitConstants w) (r d : BitVec 8) (a : BitVec 10) (S : Slots) :
    injectSlots w ic r d a (injectSlots w ic r d a S) = injectSlots w ic r d a S :=
  injectSlots_congr ic r d a (getElem_injectSlots_of_kept ic r d a S)

/-- Settles O49: the second injection finds the same key and nonce. -/
theorem injTwiceIsInjOnce : Obligations.InjTwiceIsInjOnce := by
  intro d a s hv hr
  obtain ⟨t, ht, -, hblock⟩ := exec_completed_spec (faultOf_inj_init hv hr d a).1
  have hv' : t.block.v = true := by rw [hblock]; exact hv
  have hr' : t.block.r.toNat ≤ 63 := by rw [hblock]; exact hr
  obtain ⟨u, hu, -, hblock'⟩ := exec_completed_spec (faultOf_inj_init hv' hr' d a).1
  refine ⟨t, u, ht, hu, ?_⟩
  rw [hblock', hblock]
  simp only [completedBlock, completedSlots, injectSlots_injectSlots]

/-! ### INIT -/

theorem readAll_roundSlots (S : Slots) : readAll w (roundSlots w S) = roundWords (readAll w S) := readAll_writeAll _

theorem readAll_rounds (n : Nat) (S : Slots) :
    readAll w ((roundSlots w)^[n] S) = roundWords^[n] (readAll w S) :=
  (Function.Semiconj.iterate_right (readAll_roundSlots (w := w)) n) S

/-- Settles O50: INIT completes, and reading the slots turns rounds on slots into rounds on words. -/
theorem initCommandInitializes : Obligations.InitCommandInitializes := by
  intro d a s hv hr
  obtain ⟨t, ht, hans, hblock⟩ := exec_completed_spec (faultOf_inj_init hv hr d a).2
  refine ⟨t, ht, hans, ?_, ?_⟩
  · rw [hblock, completedBlock_slots, completedSlots, readAll_rounds, readAll_injectSlots]
    rfl
  · rw [hblock]; exact completedBlock_sameControl _ _ nofun

namespace RunsTo

variable {b : Block} {S : Slots}

theorem round (hv : b.v = true) : RunsTo b [(.f, 0)] S (roundSlots b.ws S) :=
  of_complete (dout := 0#64) fun | ⟨_, _, _, _, _⟩, rfl => execF_accepted hv

theorem rounds (hv : b.v = true) (n : Nat) : RunsTo b (List.replicate n (.f, 0)) S ((roundSlots b.ws)^[n] S) := by
  induction n generalizing S with
  | zero => exact nil
  | succ n ih => exact (round hv).append ih

theorem inject (hv : b.v = true) (hr : b.r.toNat ≤ 63) (d : BitVec 8) (a : BitVec 10) :
    RunsTo b [(.inj d a, 0)] S (injectSlots b.ws (Config.ic b.ws) b.r d a S) :=
  of_complete (dout := 0#64) fun | ⟨_, _, _, _, _⟩, rfl => exec_completes (faultOf_inj_init hv hr d a).1

end RunsTo

/-- Settles O51: both are followed on the slots, injection and then `R` rounds. -/
theorem initEqualsInjThenRounds : Obligations.InitEqualsInjThenRounds := by
  intro d a s hv hr
  obtain ⟨t, ht, -, hblock⟩ := exec_completed_spec (faultOf_inj_init hv hr d a).2
  obtain ⟨u, hu, hblock'⟩ := ((RunsTo.inject hv hr d a).append (RunsTo.rounds hv s.block.r.toNat)) s rfl
  exact ⟨t, u, ht, hu, hblock.trans hblock'.symm⟩

end Sys2Proof.Machine

/-! PROOFS. The assembler (30_encoding.md R72, R74). Events present commands exactly when they are the commands' own
words, since decoding and encoding undo each other; and an operand in range is a field that holds its number. -/

namespace Sys2Proof.Machine

/-! ### Events and commands -/

/-- An event presents a command exactly when it is the event of issuing it. -/
theorem eq_toEvent_iff {e : HostEvent} {c : Issued} :
    (∃ cw, e = .command cw c.2 ∧ decode cw = .ok c.1) ↔ e = toEvent c := by
  refine ⟨?_, fun h => ⟨encode c.1, h, decode_encode c.1⟩⟩
  rintro ⟨cw, rfl, hd⟩
  rw [toEvent, encode_of_decode hd]

theorem presents_iff {events : List HostEvent} {commands : List Issued} :
    presents events commands ↔ events = commands.map toEvent := by
  simp only [presents, eq_toEvent_iff]
  rw [← List.forall₂_map_right_iff (f := toEvent), List.forall₂_eq_eq_eq]

theorem assemble_eq_some {l : AsmLine} {events : List HostEvent} :
    assemble l = some events ↔ l.wellFormed = true ∧ (expand l).map toEvent = events := by
  unfold assemble
  split <;> simp [*]

/-- A line assembles as `Stands` says if `Stands` holds of its expansion alone, and only when the line is well
formed. -/
theorem assemble_iff {l : AsmLine} {events : List HostEvent} {Stands : List Issued → Prop}
    (h : ∀ commands, Stands commands ↔ l.wellFormed = true ∧ commands = expand l) :
    assemble l = some events ↔ ∃ commands, presents events commands ∧ Stands commands := by
  simp only [assemble_eq_some, h, presents_iff]
  refine ⟨fun ⟨hw, he⟩ => ⟨_, he.symm, hw, rfl⟩, ?_⟩
  rintro ⟨_, he, hw, rfl⟩
  exact ⟨hw, he.symm⟩

/-! ### Operands in range -/

theorem exists_slot_iff {n : Nat} {P : SlotIx → Prop} :
    (∃ i : SlotIx, i.val = n ∧ P i) ↔ slotInRange n = true ∧ P (slotOf n) := by
  rw [slotInRange, decide_eq_true_eq]
  constructor
  · rintro ⟨i, rfl, hi⟩
    refine ⟨i.isLt, ?_⟩
    rwa [slotOf, Fin.ofNat_val_eq_self]
  · exact fun ⟨hn, hi⟩ => ⟨_, Nat.mod_eq_of_lt hn, hi⟩

theorem exists_bitVec_iff {k n : Nat} {P : BitVec k → Prop} :
    (∃ x : BitVec k, x.toNat = n ∧ P x) ↔ n < 2 ^ k ∧ P (BitVec.ofNat k n) := by
  constructor
  · rintro ⟨x, rfl, hx⟩
    refine ⟨x.isLt, ?_⟩
    rwa [BitVec.ofNat_toNat, BitVec.setWidth_eq]
  · exact fun ⟨hn, hx⟩ => ⟨.ofNat k n, Nat.mod_eq_of_lt hn, hx⟩

theorem widthOf_bits (w : Width) : widthOf w.bits = w := by cases w <;> rfl

theorem exists_width_iff {n : Nat} {P : Width → Prop} :
    (∃ w : Width, w.bits = n ∧ P w) ↔ widthInRange n = true ∧ P (widthOf n) := by
  constructor
  · rintro ⟨w, rfl, hw⟩
    refine ⟨by cases w <;> rfl, ?_⟩
    rwa [widthOf_bits]
  · rintro ⟨hn, hw⟩
    refine ⟨widthOf n, ?_, hw⟩
    obtain rfl | rfl : n = 32 ∨ n = 64 := by simpa [widthInRange] using hn
    · rfl
    · rfl

/-! ### Line by line -/

/-- A word that fits a width of the block fits the data-in port. -/
theorem lt_port_of_lt_width {width : Nat} (hw : widthInRange width = true) {x : Nat} (h : x < 2 ^ width) :
    x < 2 ^ 64 := by
  have hwidth : width = 32 ∨ width = 64 := by simpa [widthInRange] using hw
  exact h.trans_le (Nat.pow_le_pow_right (by decide) (by omega))

/-- Settles O53: line by line, each operand in range is the one field that holds its number. -/
theorem assembledWordsDecodeBack : Obligations.AssembledWordsDecodeBack := by
  intro l events
  cases l with
  | rol32 sd sa n | rol64 sd sa n =>
    refine assemble_iff fun commands => ?_
    simp only [exists_and_left, exists_slot_iff, exists_bitVec_iff, AsmLine.wellFormed, Bool.and_eq_true,
      decide_eq_true_eq, and_assoc]
    exact ⟨fun ⟨hn, hd, ha, _, hc⟩ => ⟨hd, ha, Nat.lt_succ_of_le hn, hc⟩,
      fun ⟨hd, ha, hn, hc⟩ => ⟨Nat.le_of_lt_succ hn, hd, ha, by omega, hc⟩⟩
  | initState width r d a k0 k1 k2 k3 n0 n1 =>
    refine assemble_iff fun commands => ?_
    simp only [exists_and_left, exists_width_iff, exists_bitVec_iff, AsmLine.wellFormed, Bool.and_eq_true,
      List.all_eq_true, decide_eq_true_eq, and_assoc]
    refine ⟨fun ⟨hr, hx, hw, _, hd, ha, _, _, _, _, _, _, hc⟩ => ⟨hw, Nat.lt_succ_of_le hr, hd, ha, hx, hc⟩,
      fun ⟨hw, hr, hd, ha, hx, hc⟩ => ?_⟩
    have port : ∀ x ∈ [k0, k1, k2, k3, n0, n1], x < 2 ^ 64 := fun x h => lt_port_of_lt_width hw (hx x h)
    simp only [List.forall_mem_cons] at port
    obtain ⟨hk0, hk1, hk2, hk3, hn0, hn1, -⟩ := port
    exact ⟨Nat.le_of_lt_succ hr, hx, hw, by omega, hd, ha, hn0, hn1, hk0, hk1, hk2, hk3, hc⟩
  | _ =>
    refine assemble_iff fun commands => ?_
    simp only [exists_and_left, exists_width_iff, exists_slot_iff, exists_bitVec_iff, AsmLine.wellFormed,
      Bool.and_eq_true, decide_eq_true_eq, and_assoc, true_and, Nat.reducePow, expand, issueLds]

/-! ### What the pseudo-instructions do -/

/-- A sequence of one command with data-in 0. -/
theorem execAll_singleton {i : Instr} {s t : State} (h : exec i { s with din := 0 } = .next t) :
    execAll [(i, 0)] s = .next t := execAll_cons h

theorem toNat_rolAmount (w : Width) (n : Nat) : (rolAmount w.bits n).toNat = (w.bits - n) % w.bits := by
  have below : (w.bits - n) % w.bits < w.bits := Nat.mod_lt _ (bits_pos w)
  have bits : w.bits ≤ 64 := bits_le_container w
  exact Nat.mod_eq_of_lt (by omega)

/-- Settles O54: MOV is AND of a slot with itself, and ROL by `n` is ROR by `(W - n) mod W`. -/
theorem pseudoInstructionsCopyAndRotateLeft : Obligations.PseudoInstructionsCopyAndRotateLeft := by
  intro sd sa n s _ _ hv hfit
  refine ⟨?_, fun hn => ?_⟩
  · obtain ⟨t, ht, -, hbits, hbut, -⟩ :=
      andCommandWritesTheBitwiseAnd (slotOf sd) (slotOf sa) (slotOf sa) { s with din := 0 } hv hfit
    refine ⟨t, execAll_singleton ht, BitVec.eq_of_getLsbD_eq fun k _ => ?_, hbut⟩
    rw [hbits, Bool.and_self]
  · have amount := toNat_rolAmount s.block.ws n
    have below : (rolAmount s.block.ws.bits n).toNat < s.block.ws.bits := by
      rw [amount]; exact Nat.mod_lt _ (bits_pos _)
    obtain ⟨t, ht, -, hbits, hbut, -⟩ := rorCommandRotatesRight (slotOf sd) (slotOf sa)
      (rolAmount s.block.ws.bits n) { s with din := 0 } hv hfit below
    refine ⟨t, Eq.trans (congrArg (execAll · s) ?_) (execAll_singleton ht), fun k hk => ?_, hbut⟩
    · cases s.block.ws <;> rfl
    · rw [hbits, decide_eq_true hk, Bool.true_and, amount, Nat.add_mod_mod, Nat.add_sub_assoc hn.le]

end Sys2Proof.Machine

/-! PROOFS. A read returns the last write (20_memory.md R47): commands that leave a slot alone keep its word and the
width it is read at, and reading changes nothing. -/

namespace Sys2Proof.Machine

/-- A command given a State leaves slot `i` and the width alone when it does not write the slot, or faults. -/
theorem exec_leaves_slot {i : SlotIx} {c : Instr} {s t : State} (h : exec c s = .next t)
    (hleave : i ∉ slotsWritten c ∨ t.responses.getLast?.map Response.st ≠ some 0#3) :
    t.block.v = s.block.v ∧ t.block.ws = s.block.ws ∧ t.block.slots[i] = s.block.slots[i] := by
  obtain ⟨_, -, -, hblock⟩ | ⟨-, ⟨hresp, -⟩, hblock⟩ := exec_next_cases h
  · rw [hblock]; exact ⟨rfl, rfl, rfl⟩
  · have hkept : i ∉ slotsWritten c := hleave.resolve_right fun hst => hst (by rw [hresp]; simp)
    have hnew : ∀ ws r, c ≠ .new ws r := by
      rintro ws r rfl
      exact hkept (mem_allSlots i)
    rw [hblock, completedBlock_of_ne_new _ _ hnew]
    exact ⟨rfl, rfl, completedSlots_of_notMem _ _ _ hkept⟩

/-- Every command adds one response, whatever the data-in value. -/
theorem exec_responses_length {c : Instr} {din : BitVec 64} {s t : State}
    (h : exec c { s with din := din } = .next t) : t.responses.length = s.responses.length + 1 := by
  obtain ⟨_, -, ⟨hresp, -⟩, -⟩ | ⟨-, ⟨hresp, -⟩, -⟩ := exec_next_cases h
  · rw [hresp, List.length_append]; rfl
  · rw [hresp, List.length_append]; rfl

/-- Commands that leave slot `i` alone, one after the other. -/
theorem execAll_leaves_slot {i : SlotIx} {commands : List (Instr × BitVec 64)} {s : State}
    (h : leavesSlot i commands s) :
    ∃ t, execAll commands s = .next t ∧ t.responses.length = s.responses.length + commands.length ∧
      t.block.v = s.block.v ∧ t.block.ws = s.block.ws ∧ t.block.slots[i] = s.block.slots[i] := by
  induction commands generalizing s with
  | nil => exact ⟨s, rfl, rfl, rfl, rfl, rfl⟩
  | cons c commands ih =>
    obtain ⟨t, ht⟩ := exec_answers_next c.1 { s with din := c.2 }
    obtain ⟨hleave, hrest⟩ := h t ht
    obtain ⟨hv, hws, hslot⟩ := exec_leaves_slot ht hleave
    obtain ⟨u, hu, hlength, hv', hws', hslot'⟩ := ih hrest
    refine ⟨u, (execAll_cons ht).trans hu, ?_, hv'.trans hv, hws'.trans hws, hslot'.trans hslot⟩
    rw [hlength, exec_responses_length ht, List.length_cons, Nat.add_right_comm, Nat.add_assoc]

/-- The word that a read answers. -/
def readValue (b : Block) (i : SlotIx) : BitVec 64 := toContainer (readSlot b.ws b.slots i)

/-- RDS given a State, with any data-in value. -/
theorem execRds_spec {s : State} (hv : s.block.v = true) (i : SlotIx) (din : BitVec 64) :
    ∃ t, exec (.rds i) { s with din := din } = .next t ∧ t.block = s.block ∧
      t.responses = s.responses ++ [⟨0#3, readValue s.block i⟩] :=
  ⟨_, needState_of_valid hv, rfl, rfl⟩

/-- Reading twice answers the same word twice. -/
theorem execAll_rds_rds {s : State} (hv : s.block.v = true) (i : SlotIx) :
    ∃ t, execAll [(.rds i, 0), (.rds i, 0)] s = .next t ∧
      t.responses = s.responses ++ [⟨0#3, readValue s.block i⟩, ⟨0#3, readValue s.block i⟩] := by
  obtain ⟨t, ht, hblock, hresp⟩ := execRds_spec hv i 0
  obtain ⟨u, hu, -, hresp'⟩ := execRds_spec (s := t) (by rw [hblock, hv]) i 0
  refine ⟨u, (execAll_cons ht).trans (execAll_cons hu), ?_⟩
  rw [hresp', hblock, hresp, List.append_assoc]
  rfl

/-- After a command that leaves a State, and commands that leave slot `i` alone, two reads of the slot answer the word
that the first command left there. -/
theorem reads_after_write {i : SlotIx} {c : Instr} {din : BitVec 64} {between : List (Instr × BitVec 64)} {s t : State}
    (ht : exec c { s with din := din } = .next t) (hv : t.block.v = true) (hleave : leavesSlot i between t) :
    ∃ u earlier, execAll ((c, din) :: between ++ [(.rds i, 0), (.rds i, 0)]) s = .next u ∧
      earlier.length = s.responses.length + 1 + between.length ∧
      u.responses = earlier ++ [⟨0#3, readValue t.block i⟩, ⟨0#3, readValue t.block i⟩] := by
  obtain ⟨v, hrun, hlength, hv', hws, hslot⟩ := execAll_leaves_slot hleave
  obtain ⟨u, hu, hresp⟩ := execAll_rds_rds (hv'.trans hv) i
  have hvalue : readValue v.block i = readValue t.block i := by
    unfold readValue readSlot
    rw [hws, hslot]
  refine ⟨u, v.responses, ?_, ?_, hvalue ▸ hresp⟩
  · rw [List.cons_append, execAll_cons ht, execAll_append hrun, hu]
  · rw [hlength, exec_responses_length ht]

/-- Settles O30: the word after the write is read; LDS's is the data-in value itself, and NEW's is 0. -/
theorem readsReturnTheLastWrite : Obligations.ReadsReturnTheLastWrite := by
  refine ⟨fun i c between s t ht hv hleave => ?_, fun i x between s hv hx hleave => ?_,
    fun i ws r between s hleave => ?_⟩
  · obtain ⟨u, earlier, hu, hlength, hresp⟩ := reads_after_write ht hv hleave
    refine ⟨u, earlier, _, hu, hlength, hresp, ?_⟩
    rw [readValue, toNat_toContainer, readSlot, toNat_toWord]
  · obtain ⟨t, ht, -, hslot, -, hws, -, hv', -⟩ := ldsWritesTheDataInValue i { s with din := x } hv hx
    obtain ⟨u, earlier, hu, hlength, hresp⟩ := reads_after_write ht (hv'.trans hv) (hleave t ht)
    have hvalue : readValue t.block i = x := by
      rw [readValue, readSlot, hslot, hws]
      exact toContainer_toWord hx
    rw [hvalue] at hresp
    exact ⟨u, earlier, hu, hlength, hresp⟩
  · obtain ⟨t, ht, -, hslot, -, -, hv, -⟩ := newCreatesAZeroedState ws r { s with din := 0 }
    obtain ⟨u, earlier, hu, hlength, hresp⟩ := reads_after_write ht hv (hleave t ht)
    have hvalue : readValue t.block i = 0#64 := by
      rw [readValue, readSlot, hslot]
      exact toContainer_toWord (by simp)
    rw [hvalue] at hresp
    exact ⟨u, earlier, hu, hlength, hresp⟩

end Sys2Proof.Machine

/-! PROOFS. The document's `initState` (43_initializer.md R152) as command words. Runs of issued commands are followed
on the block: NEW, then the six loads, whose order does not matter since their slots differ, then INIT. -/

namespace Sys2Proof.Machine

/-! ### Issued commands followed on the block -/

/-- A run after its first part. -/
theorem runSteps_add {m n : Nat} {s t : State} (h : runSteps m s = .next t) :
    runSteps (m + n) s = runSteps n t := by
  induction m generalizing s with
  | zero =>
    obtain rfl := Host.Outcome.next.inj h
    rw [Nat.zero_add]
  | succ m ih =>
    obtain ⟨u, hu⟩ := step_answers_next s
    rw [runSteps_of_next hu] at h
    rw [Nat.succ_add, runSteps_of_next hu, ih h]

/-- Issued as words from the block `b`, and whatever stands beside it, the commands leave the block `b'` and are
answered so. -/
def Issues (b : Block) (commands : List Issued) (b' : Block) (answers : List Response) : Prop :=
  ∀ (s : State) (rest : List HostEvent), s.block = b → s.pending = commands.map toEvent ++ rest →
    ∃ t, runSteps commands.length s = .next t ∧ t.block = b' ∧ t.pending = rest ∧
      t.responses = s.responses ++ answers

namespace Issues

variable {b b' b'' : Block}

theorem nil : Issues b [] b [] := fun s _ hb hp => ⟨s, rfl, hb, hp, (List.append_nil _).symm⟩

theorem append {first second : List Issued} {answers answers' : List Response} (h : Issues b first b' answers)
    (h' : Issues b' second b'' answers') : Issues b (first ++ second) b'' (answers ++ answers') := by
  intro s rest hb hp
  rw [List.map_append, List.append_assoc] at hp
  obtain ⟨t, ht, htb, htp, htr⟩ := h s _ hb hp
  obtain ⟨u, hu, hub, hup, hur⟩ := h' t rest htb htp
  refine ⟨u, ?_, hub, hup, ?_⟩
  · rw [List.length_append, runSteps_add ht, hu]
  · rw [hur, htr, List.append_assoc]

/-- One command, given what executing it does. -/
theorem of_exec {i : Instr} {din : BitVec 64} {r : Response}
    (h : ∀ s : State, s.block = b → s.din = din → ∃ t, exec i s = .next t ∧ s.answeredWith r t ∧ t.block = b') :
    Issues b [(i, din)] b' [r] := by
  intro s rest hb hp
  obtain ⟨t, ht, ⟨hresp, hpending, -⟩, hblock⟩ := h { s with pending := rest, din := din } hb rfl
  exact ⟨t, runSteps_of_next ((step_legal hp (decode_encode i)).trans ht), hblock, hpending, hresp⟩

theorem new (w : Width) (r : BitVec 8) : Issues b [(.new w r, 0)] (completedBlock b 0 (.new w r)) [.ok] :=
  of_exec fun | _, rfl, hdin => hdin ▸ exec_completed_spec rfl

theorem lds (hv : b.v = true) (sd : SlotIx) {x : BitVec 64} (hx : x.toNat < 2 ^ b.ws.bits) :
    Issues b [(.lds sd, x)] { b with slots := writeSlot b.slots sd (toWord b.ws x) } [.ok] :=
  of_exec fun s hb hdin => by
    subst hb hdin
    exact ⟨_, execLds_accepted hv hx, ⟨rfl, rfl, rfl, rfl⟩, rfl⟩

theorem init (hv : b.v = true) (hr : b.r.toNat ≤ 63) (d : BitVec 8) (a : BitVec 10) :
    Issues b [(.init d a, 0)] (completedBlock b 0 (.init d a)) [.ok] :=
  of_exec fun | _, rfl, hdin => hdin ▸ exec_completed_spec (faultOf_inj_init hv hr d a).2

theorem init_refused (hv : b.v = true) (hr : 64 ≤ b.r.toNat) (d : BitVec 8) (a : BitVec 10) :
    Issues b [(.init d a, 0)] { b with err := stickyErr b.err .parameterRange } [.faulted .parameterRange] :=
  of_exec fun | s, rfl, _ => injAndInitRefuseTooManyRounds d a s hv hr _ (by simp)

end Issues

/-! ### The six loads -/

/-- The load of a value into a slot. -/
def load (p : SlotIx × BitVec 64) : Issued := (.lds p.1, p.2)

/-- What a load leaves in the slots. -/
def loadSlot (w : Width) (S : Slots) (p : SlotIx × BitVec 64) : Slots := writeSlot S p.1 (toWord w p.2)

theorem Issues.loads {b : Block} (hv : b.v = true) {ps : List (SlotIx × BitVec 64)}
    (h : ∀ p ∈ ps, p.2.toNat < 2 ^ b.ws.bits) :
    Issues b (ps.map load) { b with slots := ps.foldl (loadSlot b.ws) b.slots } (List.replicate ps.length .ok) := by
  induction ps generalizing b with
  | nil => exact .nil
  | cons p ps ih =>
    obtain ⟨hp, hps⟩ := List.forall_mem_cons.mp h
    exact (Issues.lds hv p.1 hp).append (ih (b := { b with slots := loadSlot b.ws b.slots p }) hv hps)

/-- Loads of different slots leave the same in every order. -/
theorem foldl_loadSlot_perm {w : Width} {ps qs : List (SlotIx × BitVec 64)} (h : ps.Perm qs)
    (hnodup : (qs.map Prod.fst).Nodup) (S : Slots) : ps.foldl (loadSlot w) S = qs.foldl (loadSlot w) S := by
  refine h.foldl_eq' (fun p hp q hq T => ?_) S
  by_cases e : p.1 = q.1
  · rw [List.inj_on_of_nodup_map hnodup (h.mem_iff.mp hp) (h.mem_iff.mp hq) e]
  · exact writeSlot_comm T _ _ e

/-- A reordering of a list of images is the list of images of a reordering. -/
theorem exists_perm_of_perm_map {α β : Type} {f : α → β} {l : List β} {m : List α} (h : l.Perm (m.map f)) :
    ∃ m' : List α, m'.Perm m ∧ l = m'.map f := by
  have images : List.Forall₂ (fun y x => y = f x) (m.map f) m := by
    rw [List.forall₂_map_left_iff]
    exact List.forall₂_same.mpr fun _ _ => rfl
  obtain ⟨m', hm', p⟩ := List.perm_comp_forall₂ h images
  rw [← List.forall₂_map_right_iff (f := f), List.forall₂_eq_eq_eq] at hm'
  exact ⟨m', p, hm'⟩

/-- The block after NEW and the six loads. -/
def loadedBlock (w : Width) (r : BitVec 8) (err : Option FaultCode) (n0 n1 k0 k1 k2 k3 : BitVec 64) : Block :=
  { slots := #v[0, n0, n1, 0, k0, k1, k2, k3, 0, 0, 0, 0, 0, 0, 0, 0], ws := w, r := r, v := true, err := err }

/-- The loads into a zeroed State, in the order of the slots. -/
theorem foldl_loadSlot_zeros {w : Width} {n0 n1 k0 k1 k2 k3 : BitVec 64}
    (h : ∀ x ∈ [n0, n1, k0, k1, k2, k3], x.toNat < 2 ^ w.bits) :
    [(1, n0), (2, n1), (4, k0), (5, k1), (6, k2), (7, k3)].foldl (loadSlot w) (Vector.replicate 16 0#64) =
      #v[0, n0, n1, 0, k0, k1, k2, k3, 0, 0, 0, 0, 0, 0, 0, 0] := by
  simp only [List.forall_mem_cons] at h
  obtain ⟨h0, h1, h2, h3, h4, h5, -⟩ := h
  refine Vector.ext fun k hk => ?_
  interval_cases k <;> simp [loadSlot, toContainer_toWord, *]

/-- NEW and the six loads, in any order. -/
theorem Issues.newAndLoads (b : Block) {w : Width} (r : BitVec 8) {n0 n1 k0 k1 k2 k3 : BitVec 64}
    (h : ∀ x ∈ [n0, n1, k0, k1, k2, k3], x.toNat < 2 ^ w.bits) {ps : List (SlotIx × BitVec 64)}
    (p : ps.Perm [(1, n0), (2, n1), (4, k0), (5, k1), (6, k2), (7, k3)]) :
    Issues b ((.new w r, 0) :: ps.map load) (loadedBlock w r b.err n0 n1 k0 k1 k2 k3) (List.replicate 7 .ok) := by
  have fits : ∀ q ∈ ps, q.2.toNat < 2 ^ w.bits := fun q hq => h _ (List.mem_map_of_mem (p.mem_iff.mp hq))
  have slots : ps.foldl (loadSlot w) (Vector.replicate 16 0#64) =
      #v[0, n0, n1, 0, k0, k1, k2, k3, 0, 0, 0, 0, 0, 0, 0, 0] :=
    (foldl_loadSlot_perm p (show [1, 2, 4, 5, 6, 7].Nodup by decide) _).trans (foldl_loadSlot_zeros h)
  have run := (Issues.new (b := b) w r).append (Issues.loads (ps := ps) rfl fits)
  rw [p.length_eq] at run
  rw [loadedBlock, ← slots]
  exact run

/-! ### INIT on the loaded block -/

theorem toWord_ofNat {w : Width} {x : Nat} (h : x < 2 ^ w.bits) :
    toWord w (BitVec.ofNat 64 x) = BitVec.ofNat w.bits x := by
  have port : x < 2 ^ 64 := h.trans_le (Nat.pow_le_pow_right (by decide) (bits_le_container w))
  apply BitVec.eq_of_toNat_eq
  rw [toNat_toWord, BitVec.toNat_ofNat, BitVec.toNat_ofNat, Nat.mod_eq_of_lt port]

/-- The words that INIT leaves of a loaded key and nonce. -/
theorem readAll_init_loadedBlock (w : Width) (r d : BitVec 8) (a : BitVec 10) (err : Option FaultCode)
    (n0 n1 k0 k1 k2 k3 din : BitVec 64) :
    readAll w (completedBlock (loadedBlock w r err n0 n1 k0 k1 k2 k3) din (.init d a)).slots =
      initWords (Config.ic w) r.toNat d.toNat a.toNat #v[toWord w k0, toWord w k1, toWord w k2, toWord w k3]
        #v[toWord w n0, toWord w n1] := by
  rw [completedBlock_slots]
  exact (readAll_rounds _ _).trans (congrArg _ (readAll_injectSlots ..))

/-- A run of NEW, the loads and INIT from its events; eight steps. -/
theorem runSteps_initState {s : State} {rest : List HostEvent} {w : Width} {r d : BitVec 8} {a : BitVec 10}
    {ps : List (SlotIx × BitVec 64)} {b : Block} {answers : List Response} (hps : ps.length = 6)
    (h : Issues s.block ((.new w r, 0) :: ps.map load ++ [(.init d a, 0)]) b answers)
    (hp : s.pending = toEvent (.new w r, 0) :: (ps.map load).map toEvent ++ toEvent (.init d a, 0) :: rest) :
    ∃ t, runSteps 8 s = .next t ∧ t.block = b ∧ t.pending = rest ∧ t.responses = s.responses ++ answers := by
  obtain ⟨t, ht, hafter⟩ := h s rest rfl (by simpa using hp)
  have eight : ((.new w r, 0) :: ps.map load ++ [((.init d a, 0) : Issued)]).length = 8 := by simp [hps]
  rw [eight] at ht
  exact ⟨t, ht, hafter⟩

/-- The assembler's INITSTATE, with its operands in range. -/
theorem assemble_initState {w : Width} {r d a k0 k1 k2 k3 n0 n1 : Nat} (hr : r ≤ 63) (hd : d ≤ 255) (ha : a ≤ 1023)
    (h : ∀ x ∈ [k0, k1, k2, k3, n0, n1], x < 2 ^ w.bits) :
    assemble (.initState w.bits r d a k0 k1 k2 k3 n0 n1) =
      some ([(.new w (BitVec.ofNat 8 r), 0), issueLds 1 n0, issueLds 2 n1, issueLds 4 k0, issueLds 5 k1,
        issueLds 6 k2, issueLds 7 k3, (.init (BitVec.ofNat 8 d) (BitVec.ofNat 10 a), 0)].map toEvent) := by
  have hw : widthInRange w.bits = true := by cases w <;> rfl
  rw [assemble_eq_some, expand, widthOf_bits]
  refine ⟨?_, rfl⟩
  simp only [AsmLine.wellFormed, hw, Bool.true_and, Bool.and_eq_true, decide_eq_true_eq, List.all_eq_true]
  exact ⟨⟨⟨Nat.lt_succ_of_le hr, Nat.lt_succ_of_le hd⟩, Nat.lt_succ_of_le ha⟩, h⟩

/-- Settles O52: the loads may be put in the order of the slots, and INIT completes on the loaded block or is
refused. -/
theorem initStateSequenceInitializes : Obligations.InitStateSequenceInitializes := by
  intro w r d a k0 k1 k2 k3 n0 n1 loads rest s hr hd ha hx hloads hp
  refine ⟨?_, fun hr63 => assemble_initState hr63 hd ha hx⟩
  have hr' : (BitVec.ofNat 8 r).toNat = r := Nat.mod_eq_of_lt (by omega)
  have hd' : (BitVec.ofNat 8 d).toNat = d := Nat.mod_eq_of_lt (by omega)
  have ha' : (BitVec.ofNat 10 a).toNat = a := Nat.mod_eq_of_lt (by omega)
  obtain ⟨ps, hps, rfl⟩ := exists_perm_of_perm_map (f := load) (m := [(1, BitVec.ofNat 64 n0),
    (2, BitVec.ofNat 64 n1), (4, BitVec.ofNat 64 k0), (5, BitVec.ofNat 64 k1), (6, BitVec.ofNat 64 k2),
    (7, BitVec.ofNat 64 k3)]) hloads
  have small : ∀ x, x < 2 ^ w.bits → (BitVec.ofNat 64 x).toNat < 2 ^ w.bits := fun x h => (Nat.mod_le x _).trans_lt h
  simp only [List.forall_mem_cons] at hx
  obtain ⟨h0, h1, h2, h3, h4, h5, -⟩ := hx
  have fits : ∀ x ∈ [BitVec.ofNat 64 n0, BitVec.ofNat 64 n1, BitVec.ofNat 64 k0, BitVec.ofNat 64 k1,
      BitVec.ofNat 64 k2, BitVec.ofNat 64 k3], x.toNat < 2 ^ w.bits := by
    simp only [List.forall_mem_cons]
    exact ⟨small _ h4, small _ h5, small _ h0, small _ h1, small _ h2, small _ h3, nofun⟩
  have loaded := Issues.newAndLoads s.block (BitVec.ofNat 8 r) fits hps
  by_cases hr63 : r ≤ 63
  · have run := loaded.append (.init rfl (hr'.trans_le hr63) (BitVec.ofNat 8 d) (BitVec.ofNat 10 a))
    obtain ⟨t, ht, hblock, hpending, hresp⟩ := runSteps_initState hps.length_eq run hp
    obtain ⟨hws, hrounds, hv, herr⟩ : (loadedBlock ..).sameControl t.block := by
      rw [hblock]; exact completedBlock_sameControl _ 0 nofun
    refine ⟨t, ht, hpending, hws, (congrArg BitVec.toNat hrounds).trans hr', hv,
      fun _ => ⟨herr, hresp, ?_⟩, fun h => absurd hr63 (Nat.not_le.mpr h)⟩
    rw [hblock, readAll_init_loadedBlock, hr', hd', ha', toWord_ofNat h0, toWord_ofNat h1, toWord_ofNat h2,
      toWord_ofNat h3, toWord_ofNat h4, toWord_ofNat h5]
  · have hr64 : 64 ≤ (BitVec.ofNat 8 r).toNat := (Nat.not_le.mp hr63).trans_eq hr'.symm
    have run := loaded.append (.init_refused rfl hr64 (BitVec.ofNat 8 d) (BitVec.ofNat 10 a))
    obtain ⟨t, ht, hblock, hpending, hresp⟩ := runSteps_initState hps.length_eq run hp
    refine ⟨t, ht, hpending, ?_⟩
    rw [hblock, hresp, List.append_assoc]
    exact ⟨rfl, hr', rfl, fun h => absurd h hr63, fun _ => ⟨rfl, rfl⟩⟩

end Sys2Proof.Machine
